-- ==== Sys2Proof/Word.lean ====
section
/-! DEFINITION. The bit vectors of the block: bus words, 256-bit registers, window offsets, register numbers. -/

namespace Sys2Proof

/-- A 32-bit word of the bus, and a command word (R37, R50). -/
abbrev Word := BitVec 32

/-- The contents of a field register or of SCALAR: 256 bits (R18, R20). -/
abbrev Reg256 := BitVec 256

/-- A byte offset of the 4096-byte register window (R34). -/
abbrev Offset := BitVec 12

/-- A field-register number as a command encodes it: four bits, every value legal (R54). -/
abbrev RegNum := BitVec 4

/-- The number of one of the eight words of a 256-bit register (R38, R40). -/
abbrev WordNum := BitVec 3

/-- A byte, as the host's 32-byte strings hold it (R12). -/
abbrev Byte := BitVec 8

end Sys2Proof
end

