-- ==== Sys2Proof/Config.lean ====
section
/-! DEFINITION. The constants of the block and its OPEN parameters (R2, R7, R30): fixed for the machine, changed by nothing. -/

namespace Sys2Proof.Config

/-- The field modulus (R2). -/
def p : Nat := 2 ^ 255 - 19

/-- The curve constant of the doubling step (R7, R82). -/
def a24 : Nat := 121665

/-- Iterations of the ladder, for the bits 254 down to 0 (R7, R86). -/
def ladderIters : Nat := 255

/-- Iterations of the exponentiation inside FINV, the bit length of `p - 2` (R7, R71). -/
def finvIters : Nat := 255

/-- Size of the register window in bytes (R7, R34). -/
def windowSize : Nat := 4096

/-- OPEN: which 4096-byte page of the platform's address space holds the window (R7, R34, I8). -/
opaque windowPage : Nat

/-- WINDOW_BASE, aligned to 4096 bytes because it is the start of a page (R34). -/
def windowBase : Nat := windowSize * windowPage

/-- OPEN: the LAT parameters, a function of the opcode byte alone (R7, R73, R78, R88). No rule of the model reads it (R114). -/
opaque latency : BitVec 8 → Nat

end Sys2Proof.Config
end

