-- ==== Sys2Proof/Syntax.lean ====
section
/-! DEFINITION. The commands of the block, one constructor per row of spec/opcode_table.json (R56). -/

namespace Sys2Proof

/-- The names of the opcode map (R56). -/
inductive Opcode
  | fadd | fsub | fmul | fsqr | finv | fcswap | ladder
deriving DecidableEq, Repr

/-- The three command formats (R51, R52, R53). -/
inductive Format
  | R | U | S
deriving DecidableEq, Repr

/-- A command with its operands. Every register number and every `k` is legal (R54, R55), so every term is a command. -/
inductive Instr
  /-- `FR[rd] <- (FR[rs1] + FR[rs2]) mod p` (R66). -/
  | fadd (rd rs1 rs2 : RegNum)
  /-- `FR[rd] <- (FR[rs1] - FR[rs2]) mod p` (R67). -/
  | fsub (rd rs1 rs2 : RegNum)
  /-- `FR[rd] <- (FR[rs1] * FR[rs2]) mod p` (R68). -/
  | fmul (rd rs1 rs2 : RegNum)
  /-- `FR[rd] <- FR[rs1]^2 mod p` (R69). -/
  | fsqr (rd rs1 : RegNum)
  /-- `FR[rd] <- FR[rs1]^(p-2) mod p` (R71). -/
  | finv (rd rs1 : RegNum)
  /-- Exchange `FR[rs1]` and `FR[rs2]` when bit `k` of SCALAR is 1 (R77). -/
  | fcswap (rs1 rs2 : RegNum) (k : BitVec 8)
  /-- `FR[rd] <-` the X25519 ladder of SCALAR and `FR[rs1]` (R79). -/
  | ladder (rd rs1 : RegNum)
deriving DecidableEq, Repr

end Sys2Proof
end

