-- ==== Sys2Proof/WellFormed.lean ====
section
/-! DEFINITION. When a 32-bit word is a command: the match and mask rows of R56, the criterion of R59.
`Decode` follows the ordered checks of R57 instead; that the two agree is stated as an obligation. -/

namespace Sys2Proof

/-- One row of the match and mask table of R56. -/
structure CommandRow where
  op : Opcode
  matchBits : Word
  mask : Word
deriving DecidableEq, Repr

/-- The match and mask table of R56. -/
def commandRows : List CommandRow :=
  [ ⟨.fadd, 0x00000001, 0xFFF000FF⟩,
    ⟨.fsub, 0x00000002, 0xFFF000FF⟩,
    ⟨.fmul, 0x00000003, 0xFFF000FF⟩,
    ⟨.fsqr, 0x00000004, 0xFFFF00FF⟩,
    ⟨.finv, 0x00000005, 0xFFFF00FF⟩,
    ⟨.fcswap, 0x00000010, 0xF0000FFF⟩,
    ⟨.ladder, 0x00000020, 0xFFFF00FF⟩ ]

/-- The word agrees with the row in every bit the mask fixes. -/
def CommandRow.accepts (r : CommandRow) (w : Word) : Bool := w &&& r.mask == r.matchBits

/-- "A command is accepted exactly when `(w AND mask) = match` for one row" (R59). -/
def wellFormedWord (w : Word) : Bool := commandRows.any (fun r => r.accepts w)

end Sys2Proof
end

