-- ==== Sys2Proof/Decode.lean ====
section
/-! DEFINITION. The fields of a command word (R51 to R55), the decoder in the order of R57, and the encoder of R62. -/

namespace Sys2Proof

/-- Why a word written to CMD is not a command (R58, R59). -/
inductive DecodeError
  | illegalOpcode
  | reservedField
deriving DecidableEq, Repr

/-! ### Fields of the word (R51, R52, R53) -/

/-- `w[7:0]`. -/
def opcodeField (w : Word) : BitVec 8 := w.extractLsb' 0 8
/-- `w[11:8]`. -/
def rdField (w : Word) : RegNum := w.extractLsb' 8 4
/-- `w[15:12]`. -/
def rs1Field (w : Word) : RegNum := w.extractLsb' 12 4
/-- `w[19:16]`. -/
def rs2Field (w : Word) : RegNum := w.extractLsb' 16 4
/-- `w[27:20]`, the index of a SCALAR bit, taken as it stands (R55). -/
def kField (w : Word) : BitVec 8 := w.extractLsb' 20 8

/-! ### Opcode map (R56) -/

/-- The opcode of an opcode byte; `none` for the 249 illegal values (R58). -/
def opcodeOf (b : BitVec 8) : Option Opcode :=
  if b = 0x01 then some .fadd
  else if b = 0x02 then some .fsub
  else if b = 0x03 then some .fmul
  else if b = 0x04 then some .fsqr
  else if b = 0x05 then some .finv
  else if b = 0x10 then some .fcswap
  else if b = 0x20 then some .ladder
  else none

/-- The opcode byte of an opcode (R56). -/
def opcodeByte : Opcode → BitVec 8
  | .fadd => 0x01
  | .fsub => 0x02
  | .fmul => 0x03
  | .fsqr => 0x04
  | .finv => 0x05
  | .fcswap => 0x10
  | .ladder => 0x20

/-- The format of an opcode (R56). -/
def formatOf : Opcode → Format
  | .fadd => .R
  | .fsub => .R
  | .fmul => .R
  | .fsqr => .U
  | .finv => .U
  | .fcswap => .S
  | .ladder => .U

/-- Every bit outside the format's fields is 0 (R59). -/
def zeroFieldsClear (fmt : Format) (w : Word) : Bool :=
  match fmt with
  | .R => w.extractLsb' 20 12 == 0
  | .U => w.extractLsb' 16 16 == 0
  | .S => w.extractLsb' 8 4 == 0 && w.extractLsb' 28 4 == 0

/-- The command of an opcode with the operand fields of a word. -/
def instrOf (op : Opcode) (w : Word) : Instr :=
  match op with
  | .fadd => .fadd (rdField w) (rs1Field w) (rs2Field w)
  | .fsub => .fsub (rdField w) (rs1Field w) (rs2Field w)
  | .fmul => .fmul (rdField w) (rs1Field w) (rs2Field w)
  | .fsqr => .fsqr (rdField w) (rs1Field w)
  | .finv => .finv (rdField w) (rs1Field w)
  | .fcswap => .fcswap (rs1Field w) (rs2Field w) (kField w)
  | .ladder => .ladder (rdField w) (rs1Field w)

/-- Decode a command word: the opcode is checked first, then the zero fields (R57, R58, R59). Total over all words (R60). -/
def decode (w : Word) : Except DecodeError Instr :=
  match opcodeOf (opcodeField w) with
  | none => .error .illegalOpcode
  | some op => if zeroFieldsClear (formatOf op) w then .ok (instrOf op w) else .error .reservedField

/-! ### Fields of a command; an absent field is 0 (R57, R62) -/

def Instr.opcode : Instr → Opcode
  | .fadd _ _ _ => .fadd
  | .fsub _ _ _ => .fsub
  | .fmul _ _ _ => .fmul
  | .fsqr _ _ => .fsqr
  | .finv _ _ => .finv
  | .fcswap _ _ _ => .fcswap
  | .ladder _ _ => .ladder

def Instr.rd : Instr → RegNum
  | .fadd rd _ _ => rd
  | .fsub rd _ _ => rd
  | .fmul rd _ _ => rd
  | .fsqr rd _ => rd
  | .finv rd _ => rd
  | .fcswap _ _ _ => 0
  | .ladder rd _ => rd

def Instr.rs1 : Instr → RegNum
  | .fadd _ rs1 _ => rs1
  | .fsub _ rs1 _ => rs1
  | .fmul _ rs1 _ => rs1
  | .fsqr _ rs1 => rs1
  | .finv _ rs1 => rs1
  | .fcswap rs1 _ _ => rs1
  | .ladder _ rs1 => rs1

def Instr.rs2 : Instr → RegNum
  | .fadd _ _ rs2 => rs2
  | .fsub _ _ rs2 => rs2
  | .fmul _ _ rs2 => rs2
  | .fsqr _ _ => 0
  | .finv _ _ => 0
  | .fcswap _ rs2 _ => rs2
  | .ladder _ _ => 0

def Instr.k : Instr → BitVec 8
  | .fadd _ _ _ => 0
  | .fsub _ _ _ => 0
  | .fmul _ _ _ => 0
  | .fsqr _ _ => 0
  | .finv _ _ => 0
  | .fcswap _ _ k => k
  | .ladder _ _ => 0

/-- The latency of a command, which depends on its opcode alone (R73, R78, R88). -/
def Instr.latency (i : Instr) : Nat := Config.latency (opcodeByte i.opcode)

/-- `w = opcode | (rd << 8) | (rs1 << 12) | (rs2 << 16) | (k << 20)` (R62). -/
def encode (i : Instr) : Word :=
  (opcodeByte i.opcode).setWidth 32 ||| (i.rd.setWidth 32 <<< 8) ||| (i.rs1.setWidth 32 <<< 12)
    ||| (i.rs2.setWidth 32 <<< 16) ||| (i.k.setWidth 32 <<< 20)

/-- The decoder's answer on a word numbered as spec/opcode_table.json numbers it. Every row has 32 bits (R50), so `nbits` says nothing more. -/
def decodeTableWord (_nbits w : Nat) : Option Instr :=
  match decode (BitVec.ofNat 32 w) with
  | .ok i => some i
  | .error _ => none

end Sys2Proof
end

