-- ==== Sys2Proof/Machine/State.lean ====
section
/-! DEFINITION. The state of the block as plain data (R18 to R31), the host's events, the reasons a step stops, and reset. -/

namespace Sys2Proof.Machine

/-- A fault stops the machine. The block has no trap and no arithmetic exception (R90, R97): nothing raises a fault, and there is none. -/
inductive Fault
deriving DecidableEq, Repr

/-- Why a step has no meaning. No command raises one; all are safe, since the model stops where the spec gives no effect. -/
inductive Refusal
  /-- Raised by `exec` for a command without a meaning; no command is without one. Safe. -/
  | notModelled (mnemonic : String)
  /-- Raised by a step of a block that has never been reset (R32, I3). Safe. -/
  | noReset
  /-- Raised by a bus access that is not a full 32-bit word (R37, I7). Safe. -/
  | narrowAccess
  /-- Raised by a bus access outside the register window (R34, I12). Safe. -/
  | outsideWindow
deriving DecidableEq, Repr

/-- The operand values a command reads, captured at issue (R23, R57). -/
structure Snapshot where
  /-- `int(FR[rs1])` -/
  x : Reg256
  /-- `int(FR[rs2])` -/
  y : Reg256
  /-- SCALAR -/
  scalar : Reg256
deriving DecidableEq, Repr

/-- The record of INFLIGHT: the command, that is op, rd, rs1, rs2 and k, and its snapshot (R23). -/
structure InFlight where
  instr : Instr
  snap : Snapshot
deriving DecidableEq, Repr

/-- The hidden working state of LADDER (R27). -/
structure LadderWork where
  a : Nat
  b : Nat
  c : Nat
  d : Nat
  e : Nat
  f : Nat
  /-- the reduced base -/
  x : Nat
  /-- the scalar bit of the current iteration -/
  r : Bool
  /-- iterations still to run: the next one reads scalar bit `left - 1`, the index `i` of R27 -/
  left : Nat
deriving DecidableEq, Repr

/-- The hidden working state of an exponentiation (R28, R70). -/
structure PowWork where
  res : Nat
  base : Nat
  /-- the index of the next exponent bit -/
  bit : Nat
deriving DecidableEq, Repr

/-- The hidden working state of the core, which exists only while LADDER or FINV is in flight (R27, R28). -/
inductive Work
  | absent
  | ladder (w : LadderWork)
  | inverse (w : PowWork)
deriving DecidableEq, Repr

/-- An access of the platform's bus: an address, the byte lanes it drives or asks for, and the word it writes, or none for a read. -/
structure BusAccess where
  addr : Nat
  lanes : BitVec 4
  wdata : Option Word
deriving DecidableEq, Repr

/-- What can happen next (R11, R17): an action of the host or a turn of the core. -/
inductive Event
  /-- `MemRead(off, 4)` (R11). -/
  | memRead (off : Offset)
  /-- `MemWrite(off, 4, v)` (R11). -/
  | memWrite (off : Offset) (v : Word)
  /-- A bus access at a platform address (R34, I7, I12). -/
  | bus (acc : BusAccess)
  /-- The platform asserts the reset input (R107). -/
  | reset
  /-- The core advances its hidden working state by one iteration (R27, R28). -/
  | coreWork
  /-- The core takes the completion step (R24). -/
  | coreComplete
deriving DecidableEq, Repr

/-- The state of the block and, in the last three fields, the model's own record of its surroundings. -/
structure State where
  /-- FR0 to FR15 (R18). -/
  fr : Vector Reg256 16
  /-- SCALAR (R20). -/
  scalar : Reg256
  /-- STATUS.ERR (R21). -/
  err : Bool
  /-- STATUS.ECODE (R21). -/
  ecode : BitVec 4
  /-- INFLIGHT (R23). -/
  inflight : Option InFlight
  /-- The ladder and inverse working state (R27, R28). -/
  work : Work
  /-- The model's own: the block has been reset since power-up (R32). -/
  resetDone : Bool
  /-- The model's own: what is to happen, in this order (R44, R45, R114). -/
  events : List Event
  /-- The model's own: the words `MemRead` returned to the host, the newest first (R33). -/
  reads : List Word
deriving DecidableEq, Repr

/-- The state right after reset (R31, R107). -/
def State.reset : State where
  fr := Vector.replicate 16 0
  scalar := 0
  err := false
  ecode := 0
  inflight := none
  work := .absent
  resetDone := true
  events := []
  reads := []

end Sys2Proof.Machine
end

