-- ==== Sys2Proof/Machine/Arith.lean ====
section
/-! DEFINITION. The arithmetic of the block over the natural numbers: GF(p), exponentiation, conditional swap and the ladder (R65 to R87). -/

namespace Sys2Proof.Machine

open Sys2Proof.Config

/-! ### GF(p) (R66 to R69): exact over the integers, then one reduction mod p (R9, R65(b)) -/

def fieldAdd (x y : Nat) : Nat := (x + y) % p

/-- The difference is taken in the integers and reduced into `[0, p)` (R9, R67). -/
def fieldSub (x y : Nat) : Nat := (((x : Int) - (y : Int)) % (p : Int)).toNat

def fieldMul (x y : Nat) : Nat := (x * y) % p

def fieldSqr (x : Nat) : Nat := (x * x) % p

/-! ### pow and inverse (R70 to R72) -/

/-- The start of `pow(x, y)` (R70). -/
def powInit (x : Nat) : PowWork := { res := 1, base := x % p, bit := 0 }

/-- One iteration of `pow(x, y)`, for the exponent bit `w.bit` (R70). -/
def powIter (y : Nat) (w : PowWork) : PowWork where
  res := if y.testBit w.bit then fieldMul w.res w.base else w.res
  base := fieldMul w.base w.base
  bit := w.bit + 1

def powRun (y : Nat) : Nat → PowWork → PowWork
  | 0, w => w
  | n + 1, w => powRun y n (powIter y w)

/-- The number of bits of `y`; 0 for 0. -/
def bitLength (y : Nat) : Nat := if y = 0 then 0 else y.log2 + 1

/-- `pow(x, y)`, the exponent's bits from the least to the most significant (R70). -/
def fieldPow (x y : Nat) : Nat := (powRun y (bitLength y) (powInit x)).res

/-- `inverse(x) = pow(x, p - 2)` (R71); 0 for 0 (R72). -/
def fieldInv (x : Nat) : Nat := fieldPow x (p - 2)

/-! ### Conditional swap (R76) -/

/-- `cswap(r, X, Y)`: swapped exactly when `r` is 1 (R76). -/
def cswap {α : Type} (r : Bool) (xy : α × α) : α × α := if r then (xy.2, xy.1) else xy

/-- The mask-and-blend realisation of `cswap` (R76). Nothing in the model uses it: only the function is normative. -/
def cswapMask (r : Bool) (xy : Reg256 × Reg256) : Reg256 × Reg256 :=
  let m : Reg256 := if r then BitVec.allOnes 256 else 0
  let t := m &&& (xy.1 ^^^ xy.2)
  (xy.1 ^^^ t, xy.2 ^^^ t)

/-! ### The ladder (R79 to R84) -/

/-- Swap (a, b) and (c, d) together by the bit `r` (R79, R81). -/
def ladderSwap (r : Bool) (w : LadderWork) : LadderWork :=
  let ab := cswap r (w.a, w.b)
  let cd := cswap r (w.c, w.d)
  { w with a := ab.1, b := ab.2, c := cd.1, d := cd.2 }

/-- `ladderstep`, statement by statement in the order of R82. PRESUMED: that order is the spec's from general knowledge (G2); log 7. -/
def ladderStep (w : LadderWork) : LadderWork :=
  let e := fieldAdd w.a w.c
  let a := fieldSub w.a w.c
  let c := fieldAdd w.b w.d
  let b := fieldSub w.b w.d
  let d := fieldSqr e
  let f := fieldSqr a
  let a := fieldMul c a
  let c := fieldMul b e
  let e := fieldAdd a c
  let a := fieldSub a c
  let b := fieldSqr a
  let c := fieldSub d f
  let a := fieldMul c a24
  let a := fieldAdd a d
  let c := fieldMul c a
  let a := fieldMul d f
  let d := fieldMul b w.x
  let b := fieldSqr e
  { w with a := a, b := b, c := c, d := d, e := e, f := f }

/-- The start of the ladder: the base is all 256 bits of `u`, reduced mod p and not masked (R81, R84).
DESIGN CHOICE: e, f and r, which R27 gives no value before the first iteration, start at 0; log 6. -/
def ladderInit (u : Nat) : LadderWork :=
  { a := 1, b := u % p, c := 0, d := 1, e := 0, f := 0, x := u % p, r := false, left := ladderIters }

/-- One iteration of the ladder, for scalar bit `w.left - 1`; none once all have run (R79, R80, R86). -/
def ladderIter (k : Reg256) (w : LadderWork) : LadderWork :=
  match w.left with
  | 0 => w
  | i + 1 =>
    let r := k.getLsbD i
    ladderSwap r (ladderStep (ladderSwap r { w with r := r, left := i }))

def ladderRun (k : Reg256) : Nat → LadderWork → LadderWork
  | 0, w => w
  | n + 1, w => ladderRun k n (ladderIter k w)

/-- The final step: `a * inverse(c)` (R83). -/
def ladderFinish (w : LadderWork) : Nat := fieldMul w.a (fieldInv w.c)

/-- The value LADDER writes: 255 iterations whatever the scalar and the base, then the final step (R79, R86). -/
def ladderValue (k : Reg256) (u : Nat) : Nat := ladderFinish (ladderRun k ladderIters (ladderInit u))

/-! ### Working state of the command in flight (R27, R28) -/

/-- The working state a command has when it is issued. -/
def workStart (i : Instr) (snap : Snapshot) : Work :=
  match i with
  | .fadd _ _ _ => .absent
  | .fsub _ _ _ => .absent
  | .fmul _ _ _ => .absent
  | .fsqr _ _ => .absent
  | .finv _ _ => .inverse (powInit snap.x.toNat)
  | .fcswap _ _ _ => .absent
  | .ladder _ _ => .ladder (ladderInit snap.x.toNat)

/-- One iteration of the working state; nothing once all iterations have run (R27, R28, R86). -/
def workIter (snap : Snapshot) (w : Work) : Work :=
  match w with
  | .absent => .absent
  | .ladder l => .ladder (ladderIter snap.scalar l)
  | .inverse q => if q.bit < finvIters then .inverse (powIter (p - 2) q) else .inverse q

end Sys2Proof.Machine
end

