-- ==== Sys2Proof/Machine/Flags.lean ====
section
/-! DEFINITION. STATUS (R21): BUSY, ERR, ECODE, the word a read returns, and the error codes (R91). The block has no other flag (R26). -/

namespace Sys2Proof.Machine

/-- The errors the block records (R91). -/
inductive ErrorCode
  | illegalOpcode
  | reservedField
  | busyWrite
deriving DecidableEq, Repr

/-- The number ECODE holds for an error (R91). -/
def errorNumber : ErrorCode → BitVec 4
  | .illegalOpcode => 1
  | .reservedField => 2
  | .busyWrite => 3

/-- The error of a word that does not decode (R58, R59). -/
def decodeErrorCode : DecodeError → ErrorCode
  | .illegalOpcode => .illegalOpcode
  | .reservedField => .reservedField

/-- STATUS.BUSY: 1 exactly when a command is in flight (R21, R23). -/
def State.busy (s : State) : Bool := s.inflight.isSome

/-- The word a read of STATUS returns: `{24'b0, ECODE, 2'b0, ERR, BUSY}` (R41). -/
def statusWord (s : State) : Word :=
  0#24 ++ s.ecode ++ 0#2 ++ BitVec.ofBool s.err ++ BitVec.ofBool s.busy

end Sys2Proof.Machine
end

