-- ==== Sys2Proof/Machine/Operands.lean ====
section
/-! DEFINITION. The field registers and SCALAR as commands read and write them (R10, R18, R20), and the snapshot (R23). -/

namespace Sys2Proof.Machine

/-- `FR[r]` (R10). -/
def State.readFR (s : State) (r : RegNum) : Reg256 := s.fr[r.toNat]'r.isLt

/-- `FR[r] <- v` (R10). No register is hardwired (R18). -/
def State.writeFR (s : State) (r : RegNum) (v : Reg256) : State :=
  { s with fr := s.fr.set r.toNat v r.isLt }

/-- Write a field value to `FR[r]`; every result is below p and so fits the register (R65). -/
def State.writeField (s : State) (r : RegNum) (v : Nat) : State := s.writeFR r (BitVec.ofNat 256 v)

/-- `snapshot <- (int(FR[rs1]), int(FR[rs2]), SCALAR)`; a field the format lacks is 0 (R57). -/
def State.capture (s : State) (i : Instr) : Snapshot :=
  { x := s.readFR i.rs1, y := s.readFR i.rs2, scalar := s.scalar }

/-- `SCALAR[k]` of the snapshot (R20, R77). -/
def Snapshot.scalarBit (snap : Snapshot) (k : BitVec 8) : Bool := snap.scalar.getLsbD k.toNat

end Sys2Proof.Machine
end

