-- ==== Sys2Proof/Machine/Ops.lean ====
section
/-! DEFINITION. The operations of the block that commands and host accesses share: recording and clearing an error (R93, R96),
issue and completion (R23, R24, R57), the register window (R35 to R43), reset (R107). -/

namespace Sys2Proof.Machine

/-! ### Errors: the block's only exception-like event; it transfers no control (R93, R97) -/

/-- `raise Error(code)`: the first error since the last clear is kept (R93, R98). -/
def State.raise (s : State) (e : ErrorCode) : State :=
  if s.err then s else { s with err := true, ecode := errorNumber e }

/-- The way back from an error: `ERR <- 0`, `ECODE <- 0` (R96). -/
def State.clearError (s : State) : State := { s with err := false, ecode := 0 }

/-! ### Issue and completion -/

/-- INFLIGHT is set, with the operands captured (R57). -/
def State.issue (s : State) (i : Instr) : State :=
  { s with inflight := some { instr := i, snap := s.capture i }, work := workStart i (s.capture i) }

/-- `INFLIGHT <- none`; the working state is gone (R24, R27). -/
def State.retire (s : State) : State := { s with inflight := none, work := .absent }

/-- Run command `i`, whose result is written by `commit` from the snapshot, as one atomic completion (R24).
With `i` in flight this is its completion step, from the snapshot of its issue.
With nothing in flight it is its issue and, no host access between, its completion (R114 allows that interleaving).
With another command in flight `i` is turned away as a write to CMD is (R43). DESIGN CHOICE for the last two; log 4. -/
def runCommand (i : Instr) (commit : Snapshot → State → State) (s : State) : Host.Outcome State Fault Refusal :=
  match s.inflight with
  | none => .next (commit (s.capture i) s).retire
  | some f => if f.instr = i then .next (commit f.snap s).retire else .next (s.raise .busyWrite)

/-! ### Words of a 256-bit register (R38, R40) -/

/-- Bits `[32j+31 : 32j]`. -/
def getWord (v : Reg256) (j : WordNum) : Word := v.extractLsb' (32 * j.toNat) 32

/-- `v` with bits `[32j+31 : 32j]` replaced by `w`. -/
def setWord (v : Reg256) (j : WordNum) (w : Word) : Reg256 :=
  (v &&& ~~~((BitVec.allOnes 32).setWidth 256 <<< (32 * j.toNat))) ||| (w.setWidth 256 <<< (32 * j.toNat))

/-! ### The register window (R35) -/

/-- What an offset of the window names (R35). -/
inductive Target
  | cmd
  | status
  | scalar (j : WordNum)
  | fr (i : RegNum) (j : WordNum)
  | reserved
deriving DecidableEq, Repr

/-- The access goes to `off AND 0xFFC` (R37), which the address map names (R35). -/
def target (off : Offset) : Target :=
  let o : Offset := off &&& 0xFFC
  if o = 0x000 then .cmd
  else if o = 0x004 then .status
  else if 0x040 ≤ o ∧ o < 0x060 then .scalar ((o - 0x040).extractLsb' 2 3)
  else if 0x100 ≤ o ∧ o < 0x300 then .fr ((o - 0x100).extractLsb' 5 4) ((o - 0x100).extractLsb' 2 3)
  else .reserved

/-- The word at an offset (R22, R36, R38, R40, R41). -/
def windowRead (s : State) (off : Offset) : Word :=
  match target off with
  | .cmd => 0
  | .status => statusWord s
  | .scalar j => getWord s.scalar j
  | .fr i j => getWord (s.readFR i) j
  | .reserved => 0

/-- `MemRead(off, 4)`: the word is returned to the host, and nothing else happens (R41). -/
def State.memRead (s : State) (off : Offset) : State := { s with reads := windowRead s off :: s.reads }

/-- A write to CMD, in the order of R57. -/
def State.writeCmd (s : State) (w : Word) : State :=
  if s.busy then s.raise .busyWrite
  else
    match decode w with
    | .error e => s.raise (decodeErrorCode e)
    | .ok i => s.issue i

/-- A write to STATUS: bit 1 clears the error, in any state (R21, R96). -/
def State.writeStatus (s : State) (v : Word) : State := if v.getLsbD 1 then s.clearError else s

/-- A write to SCALAR word `j` (R40, R43). -/
def State.writeScalarWord (s : State) (j : WordNum) (v : Word) : State :=
  if s.busy then s.raise .busyWrite else { s with scalar := setWord s.scalar j v }

/-- A write to word `j` of `FR[i]` (R38, R43). -/
def State.writeFRWord (s : State) (i : RegNum) (j : WordNum) (v : Word) : State :=
  if s.busy then s.raise .busyWrite else s.writeFR i (setWord (s.readFR i) j v)

/-- `MemWrite(off, 4, v)` (R36, R42, R43). -/
def State.memWrite (s : State) (off : Offset) (v : Word) : State :=
  match target off with
  | .cmd => s.writeCmd v
  | .status => s.writeStatus v
  | .scalar j => s.writeScalarWord j v
  | .fr i j => s.writeFRWord i j v
  | .reserved => s

/-! ### Bus accesses at platform addresses (R34) -/

/-- A full word inside the window is the access at that offset (R34, R37); anything else has no meaning here (I7, I12). -/
def State.busAccess (s : State) (acc : BusAccess) : Host.Outcome State Fault Refusal :=
  if acc.addr < Config.windowBase ∨ Config.windowBase + Config.windowSize ≤ acc.addr then .refused .outsideWindow
  else if acc.lanes ≠ 0xF then .refused .narrowAccess
  else
    match acc.wdata with
    | none => .next (s.memRead (BitVec.ofNat 12 (acc.addr - Config.windowBase)))
    | some v => .next (s.memWrite (BitVec.ofNat 12 (acc.addr - Config.windowBase)) v)

/-! ### Reset and the core's hidden work -/

/-- Reset: every state element of the block takes its reset value, a command in flight is abandoned (R107, R108).
What lies outside the block, the host's coming events and what it has read, stays. -/
def State.resetBlock (s : State) : State := { State.reset with events := s.events, reads := s.reads }

/-- The core advances the hidden working state of the command in flight by one iteration (R27, R28). -/
def State.coreWork (s : State) : State :=
  match s.inflight with
  | none => s
  | some f => { s with work := workIter f.snap s.work }

end Sys2Proof.Machine
end

