-- ==== Sys2Proof/Machine/Field.lean ====
section
/-! DEFINITION. The field arithmetic commands FADD, FSUB, FMUL, FSQR and FINV (R65 to R75). -/

namespace Sys2Proof.Machine

/-- FADD (R66). -/
def execFadd (rd rs1 rs2 : RegNum) (s : State) : Host.Outcome State Fault Refusal :=
  runCommand (.fadd rd rs1 rs2) (fun v t => t.writeField rd (fieldAdd v.x.toNat v.y.toNat)) s

/-- FSUB (R67). -/
def execFsub (rd rs1 rs2 : RegNum) (s : State) : Host.Outcome State Fault Refusal :=
  runCommand (.fsub rd rs1 rs2) (fun v t => t.writeField rd (fieldSub v.x.toNat v.y.toNat)) s

/-- FMUL (R68). -/
def execFmul (rd rs1 rs2 : RegNum) (s : State) : Host.Outcome State Fault Refusal :=
  runCommand (.fmul rd rs1 rs2) (fun v t => t.writeField rd (fieldMul v.x.toNat v.y.toNat)) s

/-- FSQR (R69). -/
def execFsqr (rd rs1 : RegNum) (s : State) : Host.Outcome State Fault Refusal :=
  runCommand (.fsqr rd rs1) (fun v t => t.writeField rd (fieldSqr v.x.toNat)) s

/-- FINV, the inverse of zero being 0 (R71, R72). -/
def execFinv (rd rs1 : RegNum) (s : State) : Host.Outcome State Fault Refusal :=
  runCommand (.finv rd rs1) (fun v t => t.writeField rd (fieldInv v.x.toNat)) s

end Sys2Proof.Machine
end

