-- ==== Sys2Proof/Machine/Ladder.lean ====
section
/-! DEFINITION. The conditional swap and ladder commands FCSWAP and LADDER (R76 to R89). -/

namespace Sys2Proof.Machine

/-- FCSWAP: both registers are written in every case, with their own values when the bit is 0 (R77, R78). -/
def execFcswap (rs1 rs2 : RegNum) (k : BitVec 8) (s : State) : Host.Outcome State Fault Refusal :=
  runCommand (.fcswap rs1 rs2 k)
    (fun v t =>
      let xy := cswap (v.scalarBit k) (v.x, v.y)
      (t.writeFR rs1 xy.1).writeFR rs2 xy.2) s

/-- LADDER, the scalar being SCALAR as the host wrote it and the base all 256 bits of `FR[rs1]` (R79, R84, R85). -/
def execLadder (rd rs1 : RegNum) (s : State) : Host.Outcome State Fault Refusal :=
  runCommand (.ladder rd rs1) (fun v t => t.writeField rd (ladderValue v.scalar v.x.toNat)) s

end Sys2Proof.Machine
end

