-- ==== Sys2Proof/Machine/Agents.lean ====
section
/-! DEFINITION. The two agents of R17: what one event of the host or one turn of the core does. -/

namespace Sys2Proof.Machine

/-- The completion step of the core, enabled when a command is in flight (R24). When none is, the core does nothing. -/
def coreComplete (s : State) : Host.Outcome State Fault Refusal :=
  match s.inflight with
  | none => .next s
  | some f => exec f.instr s

/-- One event, in a state whose `events` no longer hold it. -/
def runEvent (e : Event) (s : State) : Host.Outcome State Fault Refusal :=
  match e with
  | .memRead off => .next (s.memRead off)
  | .memWrite off v => .next (s.memWrite off v)
  | .bus acc => s.busAccess acc
  | .reset => .next s.resetBlock
  | .coreWork => .next s.coreWork
  | .coreComplete => coreComplete s

/-- The next event. With none left the host is silent, and the core completes what is in flight (weak fairness, R114) or idles (R109). -/
def runNext (s : State) : Host.Outcome State Fault Refusal :=
  match s.events with
  | [] => coreComplete s
  | e :: rest => runEvent e { s with events := rest }

/-- A block that was never reset answers to nothing but reset (R32, R110). -/
def runBeforeReset (s : State) : Host.Outcome State Fault Refusal :=
  match s.events with
  | .reset :: rest => .next (State.resetBlock { s with events := rest })
  | _ => .refused .noReset

/-- Place command word `w` where the next step runs it: for a command, the host's write to CMD has issued it and the core's completion comes next;
for any other word, the host's write to CMD comes next. -/
def placeCommand (s : State) (w : Word) : State :=
  match decode w with
  | .ok i => { (s.retire.issue i) with resetDone := true, events := .coreComplete :: s.events }
  | .error _ => { s.retire with resetDone := true, events := .memWrite 0x000 w :: s.events }

end Sys2Proof.Machine
end

