-- ==== Sys2Proof/Machine/Step.lean ====
section
/-! DEFINITION. One step of the machine: the next event of the host or turn of the core (R17, R44, R45). -/

namespace Sys2Proof.Machine

def step (s : State) : Host.Outcome State Fault Refusal :=
  if s.resetDone then runNext s else runBeforeReset s

/-- `s` with command word `w` placed so that the very next step runs it; every command has 32 bits (R50). Log 5 says how a program comes to run. -/
def State.withFetchWord (s : State) (_nbits w : Nat) : State := placeCommand s (BitVec.ofNat 32 w)

end Sys2Proof.Machine
end

