-- ==== Sys2Proof/Machine/HostRef.lean ====
section
/-! DEFINITION. The host-side reference functions of R12 to R15. They are no operations of the block (R6(a)). -/

namespace Sys2Proof.Machine

/-- `le_int(B)`: byte `B[j]` has weight `256^j` (R12). -/
def leInt : List Byte → Nat
  | [] => 0
  | b :: rest => b.toNat + 256 * leInt rest

/-- `le_bytes_n(x)` (R12). -/
def leBytes : Nat → Nat → List Byte
  | 0, _ => []
  | n + 1, x => BitVec.ofNat 8 x :: leBytes n (x / 256)

/-- `clamp(k)` of a 32-byte string, as a copy (R13). -/
def clamp (k : List Byte) : List Byte :=
  (k.modify 0 (fun b => b &&& 0xF8)).modify 31 (fun b => (b &&& 0x7F) ||| 0x40)

/-- `decode(B)`, with no mask on the top bit (R14). -/
def decodeBytes (b : List Byte) : Nat := leInt b

/-- `encode(x)` (R14). -/
def encodeField (x : Nat) : List Byte := leBytes 32 x

/-- `pubkey(sk)`, the base point being u = 9 (R15). -/
def pubkey (sk : List Byte) : List Byte := encodeField (ladderValue (BitVec.ofNat 256 (leInt (clamp sk))) 9)

/-- `x25519(sk, pk)` (R15). -/
def x25519 (sk pk : List Byte) : List Byte :=
  encodeField (ladderValue (BitVec.ofNat 256 (leInt (clamp sk))) (decodeBytes pk))

/-- `genkey()` from 32 bytes of the host's random source; with no source there is no key (R15). -/
def genkey (random : Option (List Byte)) : Option (List Byte) := random.map clamp

end Sys2Proof.Machine
end

