-- ==== Sys2Proof/Machine/Macros.lean ====
section
/-! DEFINITION. The pseudo-instructions of R63 as host macros over commands and events. -/

namespace Sys2Proof.Machine

/-- The pseudo-instructions of R63. -/
inductive Pseudo
  | wait
  | fmov (fd fs fz : RegNum)
  | fred (fd fs fz : RegNum)
  | fneg (fd fs fz : RegNum)
  | fdiv (fd fa fb ft : RegNum)
  | fcswap2 (fa fb fc fd : RegNum) (k : BitVec 8)
  | lstep (k : BitVec 8)
deriving DecidableEq, Repr

/-- The 22 commands of `LSTEP k` (R63). -/
def lstepCommands (k : BitVec 8) : List Instr :=
  [ .fcswap 0 1 k, .fcswap 2 3 k,
    .fadd 4 0 2, .fsub 0 0 2, .fadd 2 1 3, .fsub 1 1 3,
    .fsqr 3 4, .fsqr 5 0, .fmul 0 2 0, .fmul 2 1 4,
    .fadd 4 0 2, .fsub 0 0 2, .fsqr 1 0, .fsub 2 3 5,
    .fmul 0 2 7, .fadd 0 0 3, .fmul 2 2 0, .fmul 0 3 5,
    .fmul 3 1 6, .fsqr 1 4,
    .fcswap 0 1 k, .fcswap 2 3 k ]

/-- The commands a pseudo-instruction expands into (R63). -/
def expand : Pseudo → List Instr
  | .wait => []
  | .fmov fd fs fz => [.fadd fd fs fz]
  | .fred fd fs fz => [.fadd fd fs fz]
  | .fneg fd fs fz => [.fsub fd fz fs]
  | .fdiv fd fa fb ft => [.finv ft fb, .fmul fd fa ft]
  | .fcswap2 fa fb fc fd k => [.fcswap fa fb k, .fcswap fc fd k]
  | .lstep k => lstepCommands k

/-- One poll of the WAIT loop: a read of STATUS (R63). -/
def poll : Event := .memRead 0x004

/-- The WAIT loop: on a busy block, `n` polls that see BUSY = 1, then completion and the poll that sees BUSY = 0;
on an idle block one poll. The interleaving is the argument `n` (R63, R114). -/
def waitEvents (busy : Bool) (n : Nat) : List Event :=
  if busy then List.replicate n poll ++ [.coreComplete, poll] else [poll]

/-- A command followed by WAIT, on an idle block: it is issued, so the WAIT finds the block busy (R63). -/
def commandEvents (n : Nat) (i : Instr) : List Event := .memWrite 0x000 (encode i) :: waitEvents true n

/-- A pseudo-instruction as the host's events, `busy` being STATUS.BUSY where it starts; a WAIT stands after every command (R63).
The WAIT after command `j` of the expansion polls `polls j` times before the completion, each WAIT a number of its own, as R114 leaves it open.
DESIGN CHOICE: these numbers are an argument, and a WAIT that is a macro by itself takes `polls 0`; log 17. -/
def pseudoEvents (busy : Bool) (polls : Nat → Nat) (q : Pseudo) : List Event :=
  match q with
  | .wait => waitEvents busy (polls 0)
  | _ => (expand q).zipIdx.flatMap fun c => commandEvents (polls c.2) c.1

/-- The eight writes that put `x` into `FR[i]` (R38, R110(3)). -/
def writeFREvents (i : RegNum) (x : Reg256) : List Event :=
  (List.range 8).map fun j =>
    .memWrite (BitVec.ofNat 12 (0x100 + 0x20 * i.toNat + 4 * j)) (getWord x (BitVec.ofNat 3 j))

/-- The eight writes that put `x` into SCALAR (R40, R110(3)). -/
def writeScalarEvents (x : Reg256) : List Event :=
  (List.range 8).map fun j => .memWrite (BitVec.ofNat 12 (0x040 + 4 * j)) (getWord x (BitVec.ofNat 3 j))

/-- The eight reads of the words of `FR[i]` (R38, R110(6)). -/
def readFREvents (i : RegNum) : List Event :=
  (List.range 8).map fun j => .memRead (BitVec.ofNat 12 (0x100 + 0x20 * i.toNat + 4 * j))

/-- The accesses of a host that computes `x25519(sk, pk)` in the order of R110: scalar, base, command, WAIT, results (R111). -/
def x25519Events (n : Nat) (d b : RegNum) (scalar base : Reg256) : List Event :=
  writeScalarEvents scalar ++ (writeFREvents b base ++ (commandEvents n (.ladder d b) ++ readFREvents d))

/-- Run a list of commands one after another, each to its completion (R44, R110). -/
def runCommands : List Instr → State → Host.Outcome State Fault Refusal
  | [], s => .next s
  | i :: rest, s =>
    match exec i s with
    | .next t => runCommands rest t
    | .fault r => .fault r
    | .refused r => .refused r

end Sys2Proof.Machine
end

