-- ==== Sys2Proof/Safety.lean ====
section
/-! DEFINITION. The invariant of the block, which events the model has a meaning for, and the terms in which claims speak of a run. -/

namespace Sys2Proof.Machine

/-- ERR and ECODE agree: no error and code 0, or an error and one of the codes 1 to 3 (R21, R91, I11). -/
def State.ErrorOk (s : State) : Prop :=
  (s.err = false ∧ s.ecode = 0) ∨ (s.err = true ∧ (s.ecode = 1 ∨ s.ecode = 2 ∨ s.ecode = 3))

/-- No register a command reads changes while it is in flight: the snapshot of its issue is what a snapshot taken now would be (R23). -/
def State.SnapshotOk (s : State) : Prop := ∀ f, s.inflight = some f → f.snap = s.capture f.instr

/-- `n` iterations of the working state. -/
def workRun (snap : Snapshot) : Nat → Work → Work
  | 0, w => w
  | n + 1, w => workRun snap n (workIter snap w)

/-- The working state exists only while a command is in flight, and is some number of iterations from its start (R27, R28). -/
def State.WorkOk (s : State) : Prop :=
  (s.inflight = none → s.work = .absent) ∧
    ∀ f, s.inflight = some f → ∃ n, s.work = workRun f.snap n (workStart f.instr f.snap)

/-- The invariant of the block. -/
structure State.Inv (s : State) : Prop where
  error : s.ErrorOk
  snapshot : s.SnapshotOk
  work : s.WorkOk

/-- The event has a meaning: all do, except a bus access that is narrow or outside the window (I7, I12). -/
def Event.InScope (e : Event) : Prop :=
  match e with
  | .memRead _ => True
  | .memWrite _ _ => True
  | .bus acc =>
    Config.windowBase ≤ acc.addr ∧ acc.addr < Config.windowBase + Config.windowSize ∧ acc.lanes = 0xF
  | .reset => True
  | .coreWork => True
  | .coreComplete => True

/-- Command `i` can run in `s` with operands `snap`: nothing is in flight and `snap` is captured now, or `i` is in flight with it. -/
def State.CanRun (s : State) (i : Instr) (snap : Snapshot) : Prop :=
  (s.inflight = none ∧ snap = s.capture i) ∨ s.inflight = some { instr := i, snap := snap }

/-- No command but `i` is in flight, and what is in flight holds the operands as they stand (R23). -/
def State.Ready (s : State) (i : Instr) : Prop := s.SnapshotOk ∧ ∀ f, s.inflight = some f → f.instr = i

/-- The registers a command writes (R18, R24). -/
def destinations : Instr → List RegNum
  | .fadd rd _ _ => [rd]
  | .fsub rd _ _ => [rd]
  | .fmul rd _ _ => [rd]
  | .fsqr rd _ => [rd]
  | .finv rd _ => [rd]
  | .fcswap rs1 rs2 _ => [rs1, rs2]
  | .ladder rd _ => [rd]

/-- The frame of a completion: nothing but the registers of `ds` changes, and no command is in flight any more (R24, R26). -/
structure CompletesWriting (ds : List RegNum) (s t : State) : Prop where
  others : ∀ r, r ∉ ds → t.readFR r = s.readFR r
  scalar : t.scalar = s.scalar
  err : t.err = s.err
  ecode : t.ecode = s.ecode
  resetDone : t.resetDone = s.resetDone
  events : t.events = s.events
  reads : t.reads = s.reads
  idle : t.inflight = none
  noWork : t.work = .absent

/-- The event writes `v` at offset `off` of the window, as `MemWrite` or as a bus access. -/
def Event.Writes (e : Event) (off : Offset) (v : Word) : Prop :=
  e = .memWrite off v ∨
    ∃ acc, e = .bus acc ∧ acc.wdata = some v ∧ off = BitVec.ofNat 12 (acc.addr - Config.windowBase)

/-- An event that neither completes a command nor resets the block. -/
def Event.LeavesInFlight (e : Event) : Prop := e.InScope ∧ e ≠ .coreComplete ∧ e ≠ .reset

/-- `n` steps, as `Host.Core.run` takes them. -/
def runSteps : Nat → State → Host.Outcome State Fault Refusal
  | 0, s => .next s
  | n + 1, s =>
    match step s with
    | .next t => runSteps n t
    | .fault r => .fault r
    | .refused r => .refused r

/-! ### The pseudocode of R79 as a fold over the bit indices, for comparison with the ladder of the model -/

/-- One pass of the loop of R79 for bit index `i`: swap, ladderstep, swap back. -/
def ladderPass (k : Reg256) (w : LadderWork) (i : Nat) : LadderWork :=
  let r := k.getLsbD i
  let ab := cswap r (w.a, w.b)
  let cd := cswap r (w.c, w.d)
  let v := ladderStep { w with a := ab.1, b := ab.2, c := cd.1, d := cd.2 }
  let ab := cswap r (v.a, v.b)
  let cd := cswap r (v.c, v.d)
  { v with a := ab.1, b := ab.2, c := cd.1, d := cd.2 }

/-- The loop of R79, for the bit indices 254 down to 0, from `(1, x, 0, 1)` with `x = u mod p`. -/
def ladderLoop (k : Reg256) (u : Nat) : LadderWork :=
  (List.range 255).reverse.foldl (ladderPass k)
    { a := 1, b := u % Config.p, c := 0, d := 1, e := 0, f := 0, x := u % Config.p, r := false, left := 255 }

/-- The commands `LSTEP 254` down to `LSTEP 0` (R89(a)). -/
def allLsteps : List Instr := (List.range 255).reverse.flatMap fun k => lstepCommands (BitVec.ofNat 8 k)

end Sys2Proof.Machine
end

