-- ==== Sys2Proof/Certificates/Slice0/Obligations.lean ====
section
/-! DEFINITION. The statements about the model, each from the rules of spec/ its docstring names. -/

open Sys2Proof Sys2Proof.Machine

/-! ### Encoding -/

/-- Words of 95_test_vectors.md L2.8 and 30_encoding.md R63, one per command, decode to what they stand for. -/
def Obligations.SpecWordsDecode : Prop :=
  decode 0x00021001 = .ok (.fadd 0 1 2) ∧ decode 0x00021002 = .ok (.fsub 0 1 2) ∧
  decode 0x0000ff03 = .ok (.fmul 15 15 0) ∧ decode 0x00004304 = .ok (.fsqr 3 4) ∧
  decode 0x00000105 = .ok (.finv 1 0) ∧ decode 0x0fe32010 = .ok (.fcswap 2 3 254) ∧
  decode 0x00006820 = .ok (.ladder 8 6)

/-- Decoding the encoding of any command gives the command back (R51 to R53, R57, R62). -/
def Obligations.DecodeOfEncode : Prop := ∀ i : Instr, decode (encode i) = .ok i

/-- R64: every word of a command decodes, and encoding what it decodes to gives the word back. -/
def Obligations.CommandWordsRoundTrip : Prop :=
  ∀ w : Word, (∃ row ∈ commandRows, w &&& row.mask = row.matchBits) →
    ∃ i, decode w = .ok i ∧ encode i = w

/-- R59, last sentence, and R60: a word is a command exactly when one row of R56 matches, that row is the only one,
and every other word is an illegal opcode or a reserved field, by its opcode byte. -/
def Obligations.EveryWordIsOfOneKind : Prop :=
  ∀ w : Word,
    ((∃ i, decode w = .ok i) ↔ ∃ row ∈ commandRows, w &&& row.mask = row.matchBits) ∧
    (∀ row ∈ commandRows, ∀ row' ∈ commandRows,
      w &&& row.mask = row.matchBits → w &&& row'.mask = row'.matchBits → row = row') ∧
    (decode w = .error .illegalOpcode ↔
      w.extractLsb' 0 8 ∉ ([0x01, 0x02, 0x03, 0x04, 0x05, 0x10, 0x20] : List (BitVec 8))) ∧
    (decode w = .error .reservedField ↔
      w.extractLsb' 0 8 ∈ ([0x01, 0x02, 0x03, 0x04, 0x05, 0x10, 0x20] : List (BitVec 8)) ∧
      ¬ ∃ row ∈ commandRows, w &&& row.mask = row.matchBits)

/-! ### Decode and issue at a write to CMD -/

/-- R57: a write to CMD, the checks in their order and the record of an accepted command; R50 and R94 speak of the same write. -/
def Obligations.CommandWriteDecodesAndIssues : Prop :=
  ∀ (s : State) (rest : List Event) (w : Word), s.resetDone = true → s.events = .memWrite 0x000 w :: rest →
    let op := w.extractLsb' 0 8
    let u : State := { s with events := rest }
    if s.busy = true then step s = .next (u.raise .busyWrite)
    else if op ∉ ([0x01, 0x02, 0x03, 0x04, 0x05, 0x10, 0x20] : List (BitVec 8)) then
      step s = .next (u.raise .illegalOpcode)
    else if (op ∈ ([0x01, 0x02, 0x03] : List (BitVec 8)) ∧ w.extractLsb' 20 12 ≠ 0) ∨
        (op ∈ ([0x04, 0x05, 0x20] : List (BitVec 8)) ∧ w.extractLsb' 16 16 ≠ 0) ∨
        (op = 0x10 ∧ (w.extractLsb' 8 4 ≠ 0 ∨ w.extractLsb' 28 4 ≠ 0)) then
      step s = .next (u.raise .reservedField)
    else
      ∃ i wk, step s = .next { u with
          inflight := some { instr := i, snap := { x := s.readFR (w.extractLsb' 12 4),
                                                   y := s.readFR (w.extractLsb' 16 4), scalar := s.scalar } },
          work := wk } ∧
        opcodeByte i.opcode = op ∧ i.rd = w.extractLsb' 8 4 ∧ i.rs1 = w.extractLsb' 12 4 ∧
        i.rs2 = w.extractLsb' 16 4 ∧ i.k = w.extractLsb' 20 8

/-- R58: writing a word with one of the illegal opcode values, whatever its other bits, records ILLEGAL_OPCODE and issues nothing;
the all-zero word is such a word. -/
def Obligations.IllegalOpcodesRecordAnError : Prop :=
  ((List.range 256).filter fun b => (opcodeOf (BitVec.ofNat 8 b)).isNone).length = 249 ∧
  ∀ (s : State) (rest : List Event) (w : Word), s.resetDone = true → s.events = .memWrite 0x000 w :: rest →
    s.busy = false →
    (let b := w.toNat % 256
     b = 0x00 ∨ (0x06 ≤ b ∧ b ≤ 0x0F) ∨ (0x11 ≤ b ∧ b ≤ 0x1F) ∨ (0x21 ≤ b ∧ b ≤ 0xFF)) →
    ∃ t, step s = .next t ∧ t = State.raise { s with events := rest } .illegalOpcode ∧ t.inflight = none ∧
      (s.err = false → t.err = true ∧ t.ecode = 1)

/-! ### Errors -/

/-- R93, with the numbers of R91: the first error since the last clear is recorded, a later one changes nothing. -/
def Obligations.RaiseKeepsTheFirstError : Prop :=
  errorNumber .illegalOpcode = 1 ∧ errorNumber .reservedField = 2 ∧ errorNumber .busyWrite = 3 ∧
  ∀ (s : State) (e : ErrorCode),
    (s.err = false → s.raise e = { s with err := true, ecode := errorNumber e }) ∧
    (s.err = true → s.raise e = s)

/-- R43: while a command is in flight a write to CMD, SCALAR or FR changes nothing but the error record, and a write to STATUS
or a reserved offset acts as it does on an idle block. -/
def Obligations.BusyWritesAreDropped : Prop :=
  ∀ (s : State) (rest : List Event) (off : Offset) (v : Word), s.resetDone = true → s.busy = true →
    s.events = .memWrite off v :: rest →
    let o := off.toNat / 4 * 4
    let u : State := { s with events := rest }
    if o = 0x000 ∨ (0x040 ≤ o ∧ o ≤ 0x05C) ∨ (0x100 ≤ o ∧ o ≤ 0x2FC) then step s = .next (u.raise .busyWrite)
    else if o = 0x004 ∧ v.getLsbD 1 = true then step s = .next { u with err := false, ecode := 0 }
    else step s = .next u

/-- R92: an error appears only at a host write, and only at one to CMD, SCALAR or FR: not at a completion, a read, or a write to
STATUS or a reserved offset. -/
def Obligations.ErrorsAppearOnlyAtWrites : Prop :=
  ∀ s t : State, step s = .next t → s.err = false → t.err = true →
    ∃ e rest off v, s.events = e :: rest ∧ e.Writes off v ∧
      (let o := off.toNat / 4 * 4
       o = 0x000 ∨ (0x040 ≤ o ∧ o ≤ 0x05C) ∨ (0x100 ≤ o ∧ o ≤ 0x2FC))

/-- R95: a write that raises an error, the block being busy or the word no command, has no other effect. -/
def Obligations.ErrorsArePrecise : Prop :=
  ∀ (s : State) (rest : List Event) (off : Offset) (v : Word), s.resetDone = true → s.events = .memWrite off v :: rest →
    (let o := off.toNat / 4 * 4
     (s.busy = true ∧ (o = 0x000 ∨ (0x040 ≤ o ∧ o ≤ 0x05C) ∨ (0x100 ≤ o ∧ o ≤ 0x2FC))) ∨
     (s.busy = false ∧ o = 0x000 ∧ ∀ i, decode v ≠ .ok i)) →
    ∃ t, step s = .next t ∧ t.err = true ∧ t.fr = s.fr ∧ t.scalar = s.scalar ∧ t.inflight = s.inflight ∧
      t.work = s.work ∧ t.reads = s.reads ∧ (s.err = true → t.ecode = s.ecode)

/-- R96 and the write rule of R21: a write to STATUS clears ERR and ECODE when bit 1 is set, in any state, and does nothing else;
apart from reset no other step takes an error back. -/
def Obligations.OnlyStatusWriteOrResetClearsErrors : Prop :=
  (∀ (s : State) (rest : List Event) (v : Word), s.resetDone = true → s.events = .memWrite 0x004 v :: rest →
    step s = .next (if v.getLsbD 1 = true then { s with events := rest, err := false, ecode := 0 }
                    else { s with events := rest })) ∧
  ∀ s t : State, step s = .next t → s.err = true → t.err = false →
    ∃ e rest, s.events = e :: rest ∧
      (e = .reset ∨ ∃ off v, e.Writes off v ∧ off.toNat / 4 * 4 = 0x004 ∧ v.getLsbD 1 = true)

/-! ### The register window -/

/-- R41, over the whole map of R35: what a read returns at every offset, busy or not, and that it changes nothing. -/
def Obligations.ReadsFollowTheAddressMap : Prop :=
  ∀ (s : State) (rest : List Event) (off : Offset), s.resetDone = true → s.events = .memRead off :: rest →
    let o := off.toNat / 4 * 4
    let value : Word :=
      if o = 0x004 then
        BitVec.ofNat 32 ((if s.busy = true then 1 else 0) + 2 * (if s.err = true then 1 else 0) + 16 * s.ecode.toNat)
      else if 0x040 ≤ o ∧ o ≤ 0x05C then s.scalar.extractLsb' (32 * ((o - 0x040) / 4)) 32
      else if 0x100 ≤ o ∧ o ≤ 0x2FC then
        (s.readFR (BitVec.ofNat 4 ((o - 0x100) / 0x20))).extractLsb' (32 * ((o - 0x100) % 0x20 / 4)) 32
      else 0
    let t : State := { s with events := rest, reads := value :: s.reads }
    step s = .next t ∧ ∀ off', windowRead t off' = windowRead s off'

/-- R38: word `j` of `FR[i]` at its offset, read and written, and the bytes of the 32-byte encoding in it (R37, R39). -/
def Obligations.FieldRegisterWords : Prop :=
  ∀ (s : State) (i : RegNum) (j : WordNum) (low : Nat), low < 4 →
    let off : Offset := BitVec.ofNat 12 (0x100 + 0x20 * i.toNat + 4 * j.toNat + low)
    windowRead s off = (s.readFR i).extractLsb' (32 * j.toNat) 32 ∧
    (∀ m, m < 32 → (leBytes 32 (s.readFR i).toNat)[m]? =
      some ((getWord (s.readFR i) (BitVec.ofNat 3 (m / 4))).extractLsb' (8 * (m % 4)) 8)) ∧
    ∀ (rest : List Event) (v : Word), s.resetDone = true → s.busy = false → s.events = .memWrite off v :: rest →
      ∃ t, step s = .next t ∧
        (∀ b, b < 256 → (t.readFR i).getLsbD b =
          if 32 * j.toNat ≤ b ∧ b < 32 * j.toNat + 32 then v.getLsbD (b - 32 * j.toNat) else (s.readFR i).getLsbD b) ∧
        (∀ r, r ≠ i → t.readFR r = s.readFR r) ∧
        t = { s with events := rest, fr := t.fr }

/-- R40: word `j` of SCALAR at its offset, read and written, and where bit `i` of the scalar stands in words and bytes. -/
def Obligations.ScalarWords : Prop :=
  ∀ (s : State) (j : WordNum) (low : Nat), low < 4 →
    let off : Offset := BitVec.ofNat 12 (0x040 + 4 * j.toNat + low)
    windowRead s off = s.scalar.extractLsb' (32 * j.toNat) 32 ∧
    (∀ i, i < 256 → s.scalar.getLsbD i = (getWord s.scalar (BitVec.ofNat 3 (i / 32))).getLsbD (i % 32) ∧
      ∃ b, (leBytes 32 s.scalar.toNat)[i / 8]? = some b ∧ s.scalar.getLsbD i = b.getLsbD (i % 8)) ∧
    ∀ (rest : List Event) (v : Word), s.resetDone = true → s.busy = false → s.events = .memWrite off v :: rest →
      ∃ t, step s = .next t ∧
        (∀ b, b < 256 → t.scalar.getLsbD b =
          if 32 * j.toNat ≤ b ∧ b < 32 * j.toNat + 32 then v.getLsbD (b - 32 * j.toNat) else s.scalar.getLsbD b) ∧
        t = { s with events := rest, scalar := t.scalar }

/-- R37: the two low bits of an offset are ignored, by reads and writes alike. -/
def Obligations.LowOffsetBitsAreIgnored : Prop :=
  ∀ (s : State) (off : Offset), windowRead s off = windowRead s (off &&& 0xFFC) ∧
    ∀ v, s.memWrite off v = s.memWrite (off &&& 0xFFC) v

/-- R36: a reserved offset reads 0 and ignores writes, raising no error, busy or not. -/
def Obligations.ReservedOffsetsReadZeroIgnoreWrites : Prop :=
  ∀ (s : State) (rest : List Event) (off : Offset), s.resetDone = true →
    (let o := off.toNat / 4 * 4
     (0x008 ≤ o ∧ o ≤ 0x03C) ∨ (0x060 ≤ o ∧ o ≤ 0x0FC) ∨ 0x300 ≤ o) →
    windowRead s off = 0 ∧
    ∀ v, s.events = .memWrite off v :: rest → step s = .next { s with events := rest }

/-- The eight writes of a host load a whole field register of an idle block and change nothing else (R38, R110(3)). -/
def Obligations.EightWritesLoadARegister : Prop :=
  ∀ (s : State) (rest : List Event) (i : RegNum) (x : Reg256), s.resetDone = true → s.busy = false →
    s.events = writeFREvents i x ++ rest →
    ∃ t, runSteps 8 s = .next t ∧ t.readFR i = x ∧ (∀ r, r ≠ i → t.readFR r = s.readFR r) ∧
      t = { s with events := rest, fr := t.fr }

/-- A full-word bus access inside the window is the host access at its offset; a narrow one, or one outside, is refused by name
(R34, R37, I7, I12; log 10). -/
def Obligations.BusAccessesResolveToTheWindow : Prop :=
  ∀ (s : State) (rest : List Event) (acc : BusAccess), s.resetDone = true → s.events = .bus acc :: rest →
    (∀ off : Offset, acc.addr = Config.windowBase + off.toNat → acc.lanes = 0xF →
      (acc.wdata = none → step s = step { s with events := .memRead off :: rest }) ∧
      ∀ v, acc.wdata = some v → step s = step { s with events := .memWrite off v :: rest }) ∧
    (∀ off : Offset, acc.addr = Config.windowBase + off.toNat → acc.lanes ≠ 0xF → step s = .refused .narrowAccess) ∧
    (acc.addr < Config.windowBase ∨ Config.windowBase + 4096 ≤ acc.addr → step s = .refused .outsideWindow)

/-! ### The commands: each completes, with this result and this frame, whenever no other command is in flight -/

/-- R66. -/
def Obligations.FaddAddsModP : Prop :=
  ∀ (rd rs1 rs2 : RegNum) (s : State), s.Ready (.fadd rd rs1 rs2) →
    opcodeByte (Instr.opcode (.fadd rd rs1 rs2)) = 0x01 ∧ formatOf (Instr.opcode (.fadd rd rs1 rs2)) = .R ∧
    ∃ t, exec (.fadd rd rs1 rs2) s = .next t ∧ CompletesWriting [rd] s t ∧
      (t.readFR rd).toNat = ((s.readFR rs1).toNat + (s.readFR rs2).toNat) % (2 ^ 255 - 19)

/-- R67. -/
def Obligations.FsubSubtractsModP : Prop :=
  ∀ (rd rs1 rs2 : RegNum) (s : State), s.Ready (.fsub rd rs1 rs2) →
    opcodeByte (Instr.opcode (.fsub rd rs1 rs2)) = 0x02 ∧ formatOf (Instr.opcode (.fsub rd rs1 rs2)) = .R ∧
    ∃ t, exec (.fsub rd rs1 rs2) s = .next t ∧ CompletesWriting [rd] s t ∧
      ((t.readFR rd).toNat : Int) = (((s.readFR rs1).toNat : Int) - ((s.readFR rs2).toNat : Int)) % (2 ^ 255 - 19)

/-- R68. -/
def Obligations.FmulMultipliesModP : Prop :=
  ∀ (rd rs1 rs2 : RegNum) (s : State), s.Ready (.fmul rd rs1 rs2) →
    opcodeByte (Instr.opcode (.fmul rd rs1 rs2)) = 0x03 ∧ formatOf (Instr.opcode (.fmul rd rs1 rs2)) = .R ∧
    ∃ t, exec (.fmul rd rs1 rs2) s = .next t ∧ CompletesWriting [rd] s t ∧
      (t.readFR rd).toNat = ((s.readFR rs1).toNat * (s.readFR rs2).toNat) % (2 ^ 255 - 19)

/-- R69. -/
def Obligations.FsqrSquaresModP : Prop :=
  ∀ (rd rs1 : RegNum) (s : State), s.Ready (.fsqr rd rs1) →
    opcodeByte (Instr.opcode (.fsqr rd rs1)) = 0x04 ∧ formatOf (Instr.opcode (.fsqr rd rs1)) = .U ∧
    ∃ t, exec (.fsqr rd rs1) s = .next t ∧ CompletesWriting [rd] s t ∧
      (t.readFR rd).toNat = (s.readFR rs1).toNat * (s.readFR rs1).toNat % (2 ^ 255 - 19)

/-- R70: the loop of `pow` computes the power. -/
def Obligations.PowComputesThePower : Prop := ∀ x y : Nat, fieldPow x y = x ^ y % (2 ^ 255 - 19) ∧ fieldPow x 0 = 1

/-- R71: FINV writes the power p - 2, which is the inverse of a nonzero residue and the only one in [1, p), and 0 for a zero residue;
the exponentiation runs 255 iterations, each a squaring and 253 of them also a multiply into `res`, whatever the operand. -/
def Obligations.FinvInvertsModP : Prop :=
  (∀ (rd rs1 : RegNum) (s : State), s.Ready (.finv rd rs1) →
    opcodeByte (Instr.opcode (.finv rd rs1)) = 0x05 ∧ formatOf (Instr.opcode (.finv rd rs1)) = .U ∧
    ∃ t, exec (.finv rd rs1) s = .next t ∧ CompletesWriting [rd] s t ∧
      (let x := (s.readFR rs1).toNat
       let y := (t.readFR rd).toNat
       y = fieldPow x (2 ^ 255 - 21) ∧ y = x ^ (2 ^ 255 - 21) % (2 ^ 255 - 19) ∧
       (x % (2 ^ 255 - 19) = 0 → y = 0) ∧
       (x % (2 ^ 255 - 19) ≠ 0 → 1 ≤ y ∧ y < 2 ^ 255 - 19 ∧ x * y % (2 ^ 255 - 19) = 1 ∧
         ∀ z, 1 ≤ z → z < 2 ^ 255 - 19 → x * z % (2 ^ 255 - 19) = 1 → z = y))) ∧
  bitLength (2 ^ 255 - 21) = 255 ∧ ((List.range 255).countP fun j => (2 ^ 255 - 21).testBit j) = 253 ∧
  ∀ x n : Nat, (powRun (2 ^ 255 - 21) n (powInit x)).bit = n

/-- R72: FINV of a zero residue writes 0 and records no error, the operands of that kind being 0, p and 2p. -/
def Obligations.FinvOfZeroIsZero : Prop :=
  ∀ (rd rs1 : RegNum) (s : State), s.Ready (.finv rd rs1) →
    ((s.readFR rs1).toNat % (2 ^ 255 - 19) = 0 ↔
      (s.readFR rs1).toNat = 0 ∨ (s.readFR rs1).toNat = 2 ^ 255 - 19 ∨ (s.readFR rs1).toNat = 2 * (2 ^ 255 - 19)) ∧
    ((s.readFR rs1).toNat % (2 ^ 255 - 19) = 0 →
      ∃ t, exec (.finv rd rs1) s = .next t ∧ t.readFR rd = 0 ∧ t.err = s.err ∧ t.ecode = s.ecode)

/-- R76: the mask-and-blend realisation is the swap. -/
def Obligations.MaskAndBlendIsTheSwap : Prop :=
  ∀ (r : Bool) (x y : Reg256),
    cswapMask r (x, y) = (if r = true then (y, x) else (x, y)) ∧ cswap r (x, y) = (if r = true then (y, x) else (x, y))

/-- R77: the two registers are exchanged, unreduced, exactly when bit `k` of SCALAR is 1; with `rs1 = rs2` nothing changes. -/
def Obligations.FcswapSwapsByAScalarBit : Prop :=
  ∀ (rs1 rs2 : RegNum) (k : BitVec 8) (s : State), s.Ready (.fcswap rs1 rs2 k) →
    opcodeByte (Instr.opcode (.fcswap rs1 rs2 k)) = 0x10 ∧ formatOf (Instr.opcode (.fcswap rs1 rs2 k)) = .S ∧
    ∃ t, exec (.fcswap rs1 rs2 k) s = .next t ∧ CompletesWriting [rs1, rs2] s t ∧
      (s.scalar.getLsbD k.toNat = true → t.readFR rs1 = s.readFR rs2 ∧ t.readFR rs2 = s.readFR rs1) ∧
      (s.scalar.getLsbD k.toNat = false → t.readFR rs1 = s.readFR rs1 ∧ t.readFR rs2 = s.readFR rs2)

/-- R79, with the initial state of R81 and the final step of R83: LADDER writes what the pseudocode's loop over the bits 254 to 0 gives. -/
def Obligations.LadderFollowsThePseudocode : Prop :=
  ∀ (rd rs1 : RegNum) (s : State), s.Ready (.ladder rd rs1) →
    opcodeByte (Instr.opcode (.ladder rd rs1)) = 0x20 ∧ formatOf (Instr.opcode (.ladder rd rs1)) = .U ∧
    ∃ t, exec (.ladder rd rs1) s = .next t ∧ CompletesWriting [rd] s t ∧
      (let w := ladderLoop s.scalar (s.readFR rs1).toNat
       (t.readFR rd).toNat = w.a * (w.c ^ (2 ^ 255 - 21) % (2 ^ 255 - 19)) % (2 ^ 255 - 19))

/-- R82: the four values ladderstep returns are those of the RFC 7748 names, in the integers mod p.
Both the statement order and those names are the spec's from general knowledge (G2, G3; log 7), not the source's. -/
def Obligations.LadderStepComputesTheNamedFormulas : Prop :=
  ∀ w : LadderWork,
    let P := 2 ^ 255 - 19
    let x2 : ZMod P := w.a
    let z2 : ZMod P := w.c
    let x3 : ZMod P := w.b
    let z3 : ZMod P := w.d
    let x1 : ZMod P := w.x
    let A := x2 + z2
    let B := x2 - z2
    let E := A ^ 2 - B ^ 2
    let DA := (x3 - z3) * A
    let CB := (x3 + z3) * B
    let v := ladderStep w
    (v.a : ZMod P) = A ^ 2 * B ^ 2 ∧ (v.c : ZMod P) = E * (A ^ 2 + 121665 * E) ∧
    (v.b : ZMod P) = (DA + CB) ^ 2 ∧ (v.d : ZMod P) = x1 * (DA - CB) ^ 2 ∧
    v.a < P ∧ v.b < P ∧ v.c < P ∧ v.d < P ∧ v.x = w.x

/-- R80, R84, R85: bit 255 of the scalar is never read, and the base counts only mod p, all 256 bits of it. -/
def Obligations.LadderIgnoresBit255AndReducesTheBase : Prop :=
  ∀ (k k' : Reg256) (u u' : Nat), (∀ i, i < 255 → k.getLsbD i = k'.getLsbD i) →
    u % (2 ^ 255 - 19) = u' % (2 ^ 255 - 19) → ladderValue k u = ladderValue k' u'

/-- R86: 255 iterations whatever the scalar and the base, and the index falls by one in each. -/
def Obligations.LadderIterationsIndependentOfData : Prop :=
  ∀ (k : Reg256) (u n : Nat), (ladderRun k n (ladderInit u)).left = 255 - n ∧
    (255 ≤ n → ladderRun k n (ladderInit u) = ladderRun k 255 (ladderInit u))

/-- R87, its first two cases and its range: the result is below p, and 0 for a scalar with the bits 254 to 0 zero and for a zero base. -/
def Obligations.LadderZeroResults : Prop :=
  ∀ (k : Reg256) (u : Nat), ladderValue k u < 2 ^ 255 - 19 ∧
    ((∀ i, i < 255 → k.getLsbD i = false) → ladderValue k u = 0) ∧
    (u % (2 ^ 255 - 19) = 0 → ladderValue k u = 0)

/-- R65(e), R74(e): a result depends on its operands only mod p. -/
def Obligations.ResultsDependOnOperandsModP : Prop :=
  ∀ x x' y y' : Nat, x % (2 ^ 255 - 19) = x' % (2 ^ 255 - 19) → y % (2 ^ 255 - 19) = y' % (2 ^ 255 - 19) →
    fieldAdd x y = fieldAdd x' y' ∧ fieldSub x y = fieldSub x' y' ∧ fieldMul x y = fieldMul x' y' ∧
    fieldSqr x = fieldSqr x' ∧ fieldInv x = fieldInv x'

/-- R19: every value a field command or LADDER writes is reduced. -/
def Obligations.WrittenResultsAreReduced : Prop :=
  ∀ (i : Instr) (s : State), s.Ready i → (∀ a b k, i ≠ .fcswap a b k) →
    ∃ t, exec i s = .next t ∧ (t.readFR i.rd).toNat < 2 ^ 255 - 19

/-! ### Whole-machine statements -/

/-- The frame seen through the window: a completion changes no word but those of the registers it writes and STATUS,
and in STATUS nothing but BUSY (R24, R26). -/
def Obligations.CompletionFrameThroughTheWindow : Prop :=
  ∀ (i : Instr) (s : State), s.Ready i →
    ∃ t, exec i s = .next t ∧ t.busy = false ∧
      ∀ off : Offset,
        let o := off.toNat / 4 * 4
        (o = 0x004 → windowRead t off = windowRead s off &&& 0xFFFFFFFE) ∧
        (o ≠ 0x004 → (∀ r ∈ destinations i, ¬ (0x100 + 0x20 * r.toNat ≤ o ∧ o < 0x120 + 0x20 * r.toNat)) →
          windowRead t off = windowRead s off)

/-- R23, R65(d): what a command writes depends on its snapshot alone, not on the state it completes in. -/
def Obligations.ResultDependsOnSnapshotAlone : Prop :=
  ∀ (i : Instr) (snap : Snapshot) (s s' : State),
    s.inflight = some { instr := i, snap := snap } → s'.inflight = some { instr := i, snap := snap } →
    ∃ t t', exec i s = .next t ∧ exec i s' = .next t' ∧ ∀ r ∈ destinations i, t.readFR r = t'.readFR r

/-- Another command in flight: `exec` turns the command away with BUSY_WRITE and nothing else (the model's choice, log 4, after R43). -/
def Obligations.ExecTurnsAwayASecondCommand : Prop :=
  ∀ (i : Instr) (s : State) (f : InFlight), s.inflight = some f → f.instr ≠ i → exec i s = .next (s.raise .busyWrite)

/-- A step runs the command in flight: the core's turn, or a host that is silent, is the completion of R24, and a write of a command's
word to an idle block's CMD is its issue. -/
def Obligations.StepRunsTheDecodedCommand : Prop :=
  (∀ (s : State) (f : InFlight) (rest : List Event), s.resetDone = true → s.inflight = some f →
    (s.events = .coreComplete :: rest → step s = exec f.instr { s with events := rest }) ∧
    (s.events = [] → step s = exec f.instr s)) ∧
  (∀ (s : State) (w : Word) (i : Instr) (rest : List Event), s.resetDone = true → s.busy = false →
    s.events = .memWrite 0x000 w :: rest → decode w = .ok i → step s = .next (State.issue { s with events := rest } i)) ∧
  ∀ (s : State) (n w : Nat) (i : Instr), decode (BitVec.ofNat 32 w) = .ok i →
    step (s.withFetchWord n w) = exec i { (s.retire.issue i) with resetDone := true, events := s.events }

/-- The invariant holds right after reset. -/
def Obligations.ResetMeetsTheInvariant : Prop := State.reset.Inv

/-- Every step keeps the invariant: ERR and ECODE agree (R21, R91, I11), the operands of the command in flight are as they were captured
(R23), and the working state is some iterations from its start (R27, R28). -/
def Obligations.StepKeepsTheInvariant : Prop := ∀ s t : State, s.Inv → step s = .next t → t.Inv

/-- R107, R108, R31: reset gives every element of the block its reset value, in any state; a command in flight is gone.
That the host's coming events and its reads stay (log 15), and that the block counts as reset from then on (log 3), is the model's reading. -/
def Obligations.ResetZeroesTheBlock : Prop :=
  ∀ (s : State) (rest : List Event), s.events = .reset :: rest →
    ∃ t, step s = .next t ∧ (∀ r, t.readFR r = 0) ∧ t.scalar = 0 ∧ t.busy = false ∧ t.err = false ∧ t.ecode = 0 ∧
      t.inflight = none ∧ t.work = .absent ∧ t.resetDone = true ∧ t.events = rest ∧ t.reads = s.reads

/-- R31, the values right after reset. -/
def Obligations.ResetStateIsAllZero : Prop :=
  (∀ r, State.reset.readFR r = 0) ∧ State.reset.scalar = 0 ∧ statusWord State.reset = 0 ∧
  State.reset.err = false ∧ State.reset.ecode = 0 ∧ State.reset.inflight = none ∧ State.reset.work = .absent

/-- R32: a block that was never reset is refused everything but reset. -/
def Obligations.NothingRunsBeforeReset : Prop :=
  ∀ s : State, s.resetDone = false → (∀ rest, s.events ≠ .reset :: rest) → step s = .refused .noReset

/-- R27, R28, R33: the working state is never observable. Steps from states that differ only in it agree in all else. -/
def Obligations.WorkingStateIsNeverObserved : Prop :=
  ∀ (s : State) (w : Work),
    (∀ t, step s = .next t → ∃ w', step { s with work := w } = .next { t with work := w' }) ∧
    (∀ r, step s = .refused r → step { s with work := w } = .refused r)

/-- R20, R29: SCALAR changes only by a host write to a SCALAR word of an idle block, or by reset; no command writes it. -/
def Obligations.OnlyTheHostChangesScalar : Prop :=
  ∀ s t : State, step s = .next t → t.scalar ≠ s.scalar →
    ∃ e rest, s.events = e :: rest ∧
      (e = .reset ∨ (s.busy = false ∧ ∃ off v, e.Writes off v ∧
        0x040 ≤ off.toNat / 4 * 4 ∧ off.toNat / 4 * 4 ≤ 0x05C))

/-- R18, R29: a field register changes only by a host write to one of its words on an idle block, by reset, or by the completion of a
command that has it as a destination. -/
def Obligations.WhatChangesAFieldRegister : Prop :=
  ∀ (s t : State) (r : RegNum), step s = .next t → t.readFR r ≠ s.readFR r →
    (∃ f, s.inflight = some f ∧ r ∈ destinations f.instr ∧ t.inflight = none) ∨
    ∃ e rest, s.events = e :: rest ∧
      (e = .reset ∨ (s.busy = false ∧ ∃ off v, e.Writes off v ∧
        0x100 + 0x20 * r.toNat ≤ off.toNat / 4 * 4 ∧ off.toNat / 4 * 4 < 0x120 + 0x20 * r.toNat))

/-- R113, R45: until the completion, BUSY stays 1 and every register keeps its old value, whatever the host does short of a reset. -/
def Obligations.OldValuesUntilCompletion : Prop :=
  ∀ (es rest : List Event) (s : State), s.resetDone = true → s.busy = true → s.events = es ++ rest →
    (∀ e ∈ es, e.LeavesInFlight) →
    ∃ t, runSteps es.length s = .next t ∧ t.busy = true ∧ t.inflight = s.inflight ∧ t.fr = s.fr ∧ t.scalar = s.scalar ∧
      t.events = rest

/-- R114 (weak fairness, log 1): once the host's accesses are done the block becomes idle within one more step. -/
def Obligations.CommandsEventuallyComplete : Prop :=
  ∀ s : State, s.resetDone = true → (∀ e ∈ s.events, e.InScope) →
    ∃ t, runSteps (s.events.length + 1) s = .next t ∧ t.busy = false ∧ t.events = []

/-- R23, R24, R114: however many host accesses fall between issue and completion, the registers end as if the command had run at once on the
values they held at issue. -/
def Obligations.InterleavingNeverChangesAResult : Prop :=
  ∀ (i : Instr) (es rest : List Event) (s : State), s.resetDone = true → s.inflight = none →
    s.events = .memWrite 0x000 (encode i) :: (es ++ .coreComplete :: rest) → (∀ e ∈ es, e.LeavesInFlight) →
    ∃ t t', runSteps (es.length + 2) s = .next t ∧ exec i s = .next t' ∧
      t.fr = t'.fr ∧ t.scalar = t'.scalar ∧ t.busy = false ∧ t.events = rest

/-! ### Host macros and reference functions -/

/-- R89(a), one step: the 22 commands of `LSTEP k` do to F0 to F5 what one iteration of the ladder does to a to f. -/
def Obligations.LstepIsOneLadderIteration : Prop :=
  ∀ (k : BitVec 8) (s : State), s.inflight = none → (s.readFR 7).toNat = 121665 →
    ∃ t, runCommands (lstepCommands k) s = .next t ∧ t.inflight = none ∧ t.scalar = s.scalar ∧ t.err = s.err ∧ t.ecode = s.ecode ∧
      (∀ r : RegNum, 6 ≤ r.toNat → t.readFR r = s.readFR r) ∧
      (let w := ladderPass s.scalar
          { a := (s.readFR 0).toNat, b := (s.readFR 1).toNat, c := (s.readFR 2).toNat, d := (s.readFR 3).toNat,
            e := 0, f := 0, x := (s.readFR 6).toNat, r := false, left := 0 } k.toNat
       (t.readFR 0).toNat = w.a ∧ (t.readFR 1).toNat = w.b ∧ (t.readFR 2).toNat = w.c ∧ (t.readFR 3).toNat = w.d ∧
       (t.readFR 4).toNat = w.e ∧ (t.readFR 5).toNat = w.f)

/-- R89(a): the host-driven ladder, `LSTEP 254` down to `LSTEP 0`, leaves the a and c of LADDER's loop in F0 and F2, and `FINV` and `FMUL`
then give LADDER's result. -/
def Obligations.HostDrivenLadderGivesLaddersResult : Prop :=
  ∀ (u : Reg256) (d : RegNum) (s : State), s.inflight = none →
    (s.readFR 0).toNat = 1 → (s.readFR 1).toNat = u.toNat % (2 ^ 255 - 19) → (s.readFR 2).toNat = 0 → (s.readFR 3).toNat = 1 →
    s.readFR 6 = u → (s.readFR 7).toNat = 121665 →
    ∃ m t t', runCommands allLsteps s = .next m ∧
      (m.readFR 0).toNat = (ladderLoop s.scalar u.toNat).a ∧ (m.readFR 2).toNat = (ladderLoop s.scalar u.toNat).c ∧
      runCommands [.finv 4 2, .fmul d 0 4] m = .next t ∧ exec (.ladder d 6) s = .next t' ∧ t.readFR d = t'.readFR d

/-- R63: under their preconditions FMOV and FRED give the reduced copy, FNEG the negative, and FDIV the quotient, which is 0 for a zero divisor. -/
def Obligations.PseudoInstructionsComputeWhatTheyName : Prop :=
  let P := 2 ^ 255 - 19
  ∀ (d a b z : RegNum) (s : State), s.inflight = none →
    ((s.readFR z).toNat % P = 0 →
      (∃ t, runCommands (expand (.fmov d a z)) s = .next t ∧ (t.readFR d).toNat = (s.readFR a).toNat % P) ∧
      (∃ t, runCommands (expand (.fred d a z)) s = .next t ∧ (t.readFR d).toNat = (s.readFR a).toNat % P) ∧
      (∃ t, runCommands (expand (.fneg d a z)) s = .next t ∧ ((t.readFR d).toNat + (s.readFR a).toNat) % P = 0 ∧
        (t.readFR d).toNat < P)) ∧
    (z ≠ a →
      ∃ t, runCommands (expand (.fdiv d a b z)) s = .next t ∧
        ((s.readFR b).toNat % P ≠ 0 → (t.readFR d).toNat * (s.readFR b).toNat % P = (s.readFR a).toNat % P) ∧
        ((s.readFR b).toNat % P = 0 → (t.readFR d).toNat = 0))

/-- R63 and R114: a WAIT on a busy block reads BUSY = 1 any number of times, then, the command having completed, BUSY = 0. -/
def Obligations.WaitEndsWithAnIdleBlock : Prop :=
  ∀ (n : Nat) (rest : List Event) (s : State), s.resetDone = true → s.busy = true → s.events = waitEvents true n ++ rest →
    ∃ t, runSteps (n + 2) s = .next t ∧ t.busy = false ∧ t.events = rest ∧
      t.reads = statusWord t :: (List.replicate n (statusWord s) ++ s.reads) ∧
      (statusWord s).getLsbD 0 = true ∧ (statusWord t).getLsbD 0 = false

/-- R110, R111, R14, R15: a host that writes the clamped scalar and the base, issues LADDER, waits and reads the result holds the bytes of
the reference function, whatever the block held before and however often the WAIT finds it busy; `pubkey` is the case of the base point 9. -/
def Obligations.HostRunComputesX25519 : Prop :=
  (∀ (sk pk : List Byte) (n : Nat) (d b : RegNum) (rest : List Event) (s : State), sk.length = 32 → pk.length = 32 →
    s.resetDone = true → s.busy = false →
    s.events = x25519Events n d b (BitVec.ofNat 256 (leInt (clamp sk))) (BitVec.ofNat 256 (decodeBytes pk)) ++ rest →
    ∃ t, runSteps (n + 27) s = .next t ∧ t.events = rest ∧ t.busy = false ∧ t.err = s.err ∧ t.ecode = s.ecode ∧
      ((t.reads.take 8).reverse.flatMap fun w => leBytes 4 w.toNat) = x25519 sk pk) ∧
  ∀ sk : List Byte, pubkey sk = x25519 sk (encodeField 9)

/-- R13: what clamping does to the bits of a 32-byte string, and that doing it twice is doing it once. -/
def Obligations.ClampSetsTheBitsAndIsIdempotent : Prop :=
  ∀ k : List Byte, k.length = 32 → clamp (clamp k) = clamp k ∧ (clamp k).length = 32 ∧
    (∀ m, m ≠ 0 → m ≠ 31 → (clamp k)[m]? = k[m]?) ∧
    (clamp k)[0]? = k[0]?.map (fun b => b &&& 0xF8) ∧ (clamp k)[31]? = k[31]?.map (fun b => (b &&& 0x7F) ||| 0x40)

/-- R12: the 32-byte encoding of a value, read back, is the value. -/
def Obligations.LittleEndianRoundTrip : Prop :=
  (∀ n x : Nat, x < 256 ^ n → (leBytes n x).length = n ∧ leInt (leBytes n x) = x) ∧
  ∀ b : List Byte, leBytes b.length (leInt b) = b

/-- R63, R114: a pseudo-instruction as the host performs it, with any number of polls after each of its commands (log 17), ends with an idle
block whose registers and error record are those its commands leave when they run one after another. -/
def Obligations.PseudoEventsRunTheExpansion : Prop :=
  ∀ (q : Pseudo) (polls : Nat → Nat) (rest : List Event) (s : State), s.resetDone = true → s.busy = false →
    s.events = pseudoEvents false polls q ++ rest →
    ∃ t t', runSteps (pseudoEvents false polls q).length s = .next t ∧ runCommands (expand q) s = .next t' ∧
      t.fr = t'.fr ∧ t.scalar = t'.scalar ∧ t.err = t'.err ∧ t.ecode = t'.ecode ∧ t.busy = false ∧ t.events = rest
end

