-- ==== Sys2Proof/Laws/Prime.lean ====
section
/-! SUPPORT. The modulus of R2 is prime: a chain of Lucas certificates (a primitive root and the factors of n - 1 for each prime). -/

namespace Sys2Proof.Laws

/-- `b ^ e % n` for an exponent of at most `fuel` bits, by squaring, so that the kernel can evaluate it. -/
def powMod (n : Nat) : Nat → Nat → Nat → Nat
  | 0, _, _ => 1 % n
  | fuel + 1, b, e => (if e % 2 = 1 then b else 1) * powMod n fuel (b * b % n) (e / 2) % n

theorem powMod_eq (n : Nat) : ∀ fuel b e, e < 2 ^ fuel → powMod n fuel b e = b ^ e % n := by
  intro fuel
  induction fuel with
  | zero => intro b e he; simp [powMod, show e = 0 by simpa using he]
  | succ fuel ih =>
    intro b e he
    have hhalf : e / 2 < 2 ^ fuel := by rw [pow_succ] at he; omega
    have hsq : powMod n fuel (b * b % n) (e / 2) % n = b ^ (2 * (e / 2)) % n := by
      rw [ih _ _ hhalf, Nat.mod_mod, ← Nat.pow_mod, ← pow_two, ← pow_mul]
    rw [powMod, Nat.mul_mod, hsq, ← Nat.mul_mod]
    split
    · rw [← pow_succ', show 2 * (e / 2) + 1 = e by omega]
    · rw [one_mul, show 2 * (e / 2) = e by omega]

/-- A number with a primitive root, the factors of `n - 1` being the primes of `qs`, is prime. -/
theorem prime_of_certificate {n : Nat} (fuel g : Nat) (qs : List Nat) (hq : ∀ q ∈ qs, q.Prime)
    (hn : 1 < n ∧ n - 1 < 2 ^ fuel) (hprod : qs.prod = n - 1) (hroot : powMod n fuel g (n - 1) = 1)
    (hord : ∀ q ∈ qs, powMod n fuel g ((n - 1) / q) ≠ 1) : n.Prime := by
  have cast_eq_one : ∀ e ≤ n - 1, ((g : ZMod n) ^ e = 1 ↔ powMod n fuel g e = 1) := by
    intro e he
    have h := ZMod.natCast_eq_natCast_iff' (g ^ e) 1 n
    rw [Nat.mod_eq_of_lt hn.1, ← powMod_eq n fuel g e (by omega)] at h
    simpa using h
  refine lucas_primality n (g : ZMod n) ((cast_eq_one _ le_rfl).2 hroot) fun q hqp hdvd h => ?_
  have hmem : q ∈ qs :=
    mem_list_primes_of_dvd_prod hqp.prime (fun r hr => (hq r hr).prime) (hprod ▸ hdvd)
  exact hord q hmem ((cast_eq_one _ (Nat.div_le_self _ _)).1 h)

theorem prime_2773320623 : Nat.Prime 2773320623 :=
  prime_of_certificate 32 5 [2, 2437, 569003] (by norm_num) (by decide) (by decide) (by decide) (by decide)

theorem prime_72106336199 : Nat.Prime 72106336199 :=
  prime_of_certificate 37 7 [2, 13, 2773320623] (by simpa using ⟨by norm_num, by norm_num, prime_2773320623⟩)
    (by decide) (by decide) (by decide +kernel) (by decide +kernel)

theorem prime_1919519569386763 : Nat.Prime 1919519569386763 :=
  prime_of_certificate 51 2 [2, 3, 7, 19, 47, 47, 127, 8574133] (by norm_num)
    (by decide) (by decide) (by decide +kernel) (by decide +kernel)

theorem prime_75445702479781427272750846543864801 : Nat.Prime 75445702479781427272750846543864801 :=
  prime_of_certificate 116 7 [2, 2, 2, 2, 2, 3, 3, 5, 5, 75707, 72106336199, 1919519569386763]
    (by simpa [Nat.prime_two, Nat.prime_three, Nat.prime_five] using
      ⟨by norm_num, prime_72106336199, prime_1919519569386763⟩)
    (by decide) (by decide) (by decide +kernel) (by decide +kernel)

theorem prime_31757755568855353 : Nat.Prime 31757755568855353 :=
  prime_of_certificate 55 10 [2, 2, 2, 3, 31, 107, 223, 4153, 430751] (by norm_num)
    (by decide) (by decide) (by decide +kernel) (by decide +kernel)

theorem prime_large_factor :
    Nat.Prime 74058212732561358302231226437062788676166966415465897661863160754340907 :=
  prime_of_certificate 236 2
    [2, 3, 353, 57467, 132049, 1923133, 31757755568855353, 75445702479781427272750846543864801]
    (by simpa [Nat.prime_two, Nat.prime_three] using
      ⟨by norm_num, by norm_num, by norm_num, by norm_num, prime_31757755568855353,
        prime_75445702479781427272750846543864801⟩)
    (by decide) (by decide) (by decide +kernel) (by decide +kernel)

/-- The modulus of R2 is prime, so every nonzero residue has an inverse. -/
theorem prime_p : Config.p.Prime :=
  prime_of_certificate 255 2
    [2, 2, 3, 65147, 74058212732561358302231226437062788676166966415465897661863160754340907]
    (by simpa [Nat.prime_two, Nat.prime_three] using ⟨by norm_num, prime_large_factor⟩)
    (by decide) (by decide) (by decide +kernel) (by decide +kernel)

end Sys2Proof.Laws
end

