-- ==== Sys2Proof/Laws/Arith.lean ====
section
/-! SUPPORT. The arithmetic of the block: ranges, and its meaning in the integers mod p. -/

namespace Sys2Proof.Machine

open Sys2Proof.Config

theorem p_pos : 0 < p := by decide

theorem p_lt_two_pow : p < 2 ^ 256 := by decide

theorem fieldAdd_lt (x y : Nat) : fieldAdd x y < p := Nat.mod_lt _ p_pos

theorem fieldMul_lt (x y : Nat) : fieldMul x y < p := Nat.mod_lt _ p_pos

theorem fieldSqr_lt (x : Nat) : fieldSqr x < p := Nat.mod_lt _ p_pos

/-- The difference as an integer, before it becomes a natural number. -/
theorem fieldSub_cast_int (x y : Nat) : (fieldSub x y : Int) = ((x : Int) - y) % p :=
  Int.toNat_of_nonneg (Int.emod_nonneg _ (by exact_mod_cast p_pos.ne'))

theorem fieldSub_lt (x y : Nat) : fieldSub x y < p := by
  have h := Int.emod_lt_of_pos ((x : Int) - y) (by exact_mod_cast p_pos : (0 : Int) < p)
  rw [← fieldSub_cast_int] at h
  exact_mod_cast h

/-- A value below p, written to a register and read back, is itself. -/
theorem toNat_ofNat_of_lt {v : Nat} (h : v < p) : (BitVec.ofNat 256 v).toNat = v := by
  simp only [BitVec.toNat_ofNat]
  exact Nat.mod_eq_of_lt (h.trans p_lt_two_pow)

/-! ### In the integers mod p -/

@[simp] theorem cast_fieldAdd (x y : Nat) : (fieldAdd x y : ZMod p) = x + y := by
  simp [fieldAdd]

@[simp] theorem cast_fieldMul (x y : Nat) : (fieldMul x y : ZMod p) = x * y := by
  simp [fieldMul]

@[simp] theorem cast_fieldSqr (x : Nat) : (fieldSqr x : ZMod p) = x * x := by
  simp [fieldSqr]

@[simp] theorem cast_fieldSub (x y : Nat) : (fieldSub x y : ZMod p) = x - y := by
  have h : ((fieldSub x y : Int) : ZMod p) = ((((x : Int) - y) % p : Int) : ZMod p) := by
    rw [fieldSub_cast_int]
  simpa using h

/-- Two values below p are equal when they are equal mod p. -/
theorem eq_of_cast_eq {x y : Nat} (hx : x < p) (hy : y < p) (h : (x : ZMod p) = y) : x = y := by
  rw [ZMod.natCast_eq_natCast_iff'] at h
  rwa [Nat.mod_eq_of_lt hx, Nat.mod_eq_of_lt hy] at h

/-- The inverse of zero, evaluated (R72). -/
theorem fieldInv_zero : fieldInv 0 = 0 := by decide +kernel

/-! ### Runs of iterations -/

theorem powRun_succ (y n : Nat) (w : PowWork) : powRun y (n + 1) w = powRun y n (powIter y w) := rfl

theorem powRun_bit (y n : Nat) (w : PowWork) : (powRun y n w).bit = w.bit + n := by
  induction n generalizing w with
  | zero => rfl
  | succ n ih => rw [powRun_succ, ih]; simp [powIter]; omega

theorem ladderRun_succ (k : Reg256) (n : Nat) (w : LadderWork) :
    ladderRun k (n + 1) w = ladderRun k n (ladderIter k w) := rfl

@[simp] theorem ladderSwap_x (r : Bool) (w : LadderWork) : (ladderSwap r w).x = w.x := rfl

@[simp] theorem ladderSwap_left (r : Bool) (w : LadderWork) : (ladderSwap r w).left = w.left := rfl

@[simp] theorem ladderStep_x (w : LadderWork) : (ladderStep w).x = w.x := rfl

@[simp] theorem ladderStep_left (w : LadderWork) : (ladderStep w).left = w.left := rfl

@[simp] theorem ladderIter_x (k : Reg256) (w : LadderWork) : (ladderIter k w).x = w.x := by
  unfold ladderIter; split <;> rfl

@[simp] theorem ladderIter_left (k : Reg256) (w : LadderWork) : (ladderIter k w).left = w.left - 1 := by
  unfold ladderIter; split <;> simp_all

end Sys2Proof.Machine
end

