-- ==== Sys2Proof/Laws/PerInstr.lean ====
section
/-! SUPPORT. What the encoding of each command holds in each field (R51 to R53, R59, R62), one lemma per constructor. -/

namespace Sys2Proof.Laws

/-- The word of R62, from its five fields. -/
def packFields (o : BitVec 8) (d a b : RegNum) (k : BitVec 8) : Word :=
  o.setWidth 32 ||| (d.setWidth 32 <<< 8) ||| (a.setWidth 32 <<< 12) ||| (b.setWidth 32 <<< 16) ||| (k.setWidth 32 <<< 20)

/-- Bit `n` of the packed word is a bit of the field that covers `n`. -/
theorem getLsbD_packFields (o : BitVec 8) (d a b : RegNum) (k : BitVec 8) (n : Nat) :
    (packFields o d a b k).getLsbD n =
      (decide (n < 32) && if n < 8 then o.getLsbD n else if n < 12 then d.getLsbD (n - 8)
        else if n < 16 then a.getLsbD (n - 12) else if n < 20 then b.getLsbD (n - 16) else k.getLsbD (n - 20)) := by
  have hfar : ∀ {w : Nat} (v : BitVec w) (m : Nat), w ≤ m → v.getLsbD m = false := fun v m h =>
    BitVec.getLsbD_of_ge v m h
  simp only [packFields, BitVec.getLsbD_or, BitVec.getLsbD_shiftLeft, BitVec.getLsbD_setWidth]
  split_ifs with h8 h12 h16 h20
  · simp [show n < 12 by omega, show n < 16 by omega, show n < 20 by omega, show n < 32 by omega, h8]
  · simp [hfar o n (by omega), h8, h12, show n < 16 by omega, show n < 20 by omega, show n < 32 by omega,
      show n - 8 < 32 by omega]
  · simp [hfar o n (by omega), hfar d (n - 8) (by omega), h8, h12, h16, show n < 20 by omega, show n < 32 by omega,
      show n - 12 < 32 by omega]
  · simp [hfar o n (by omega), hfar d (n - 8) (by omega), hfar a (n - 12) (by omega), h8, h12, h16, h20,
      show n < 32 by omega, show n - 16 < 32 by omega]
  · by_cases h : n < 32
    · simp [hfar o n (by omega), hfar d (n - 8) (by omega), hfar a (n - 12) (by omega), hfar b (n - 16) (by omega),
        h8, h12, h16, h20, h, show n - 20 < 32 by omega]
    · simp [hfar o n (by omega), h]

/-- What the encoding of a command holds in each field. -/
def Encoding.Statement (i : Instr) : Prop :=
  opcodeField (encode i) = opcodeByte i.opcode ∧ rdField (encode i) = i.rd ∧ rs1Field (encode i) = i.rs1 ∧
    rs2Field (encode i) = i.rs2 ∧ kField (encode i) = i.k ∧ (encode i).extractLsb' 28 4 = 0

/-- The fields of any packed word are those it was packed from, and its top four bits are 0. -/
theorem encoding_fields (i : Instr) : Encoding.Statement i := by
  have hpack : encode i = packFields (opcodeByte i.opcode) i.rd i.rs1 i.rs2 i.k := rfl
  refine ⟨?_, ?_, ?_, ?_, ?_, ?_⟩ <;> rw [hpack] <;>
    refine BitVec.eq_of_getLsbD_eq fun n hn => ?_
  · simp [opcodeField, getLsbD_packFields, hn]
    omega
  · simp [rdField, getLsbD_packFields, hn, show 8 + n < 12 by omega]
    omega
  · simp [rs1Field, getLsbD_packFields, hn, show ¬ 12 + n < 8 by omega,
      show 12 + n < 16 by omega]
    omega
  · simp [rs2Field, getLsbD_packFields, hn, show ¬ 16 + n < 8 by omega,
      show ¬ 16 + n < 12 by omega, show 16 + n < 20 by omega]
    omega
  · simp [kField, getLsbD_packFields, hn, show ¬ 20 + n < 8 by omega,
      show ¬ 20 + n < 12 by omega, show ¬ 20 + n < 16 by omega]
    omega
  · simp [getLsbD_packFields, hn, show ¬ 28 + n < 8 by omega,
      show ¬ 28 + n < 12 by omega, show ¬ 28 + n < 16 by omega, show ¬ 28 + n < 20 by omega,
      BitVec.getLsbD_of_ge i.k (28 + n - 20) (by omega)]

theorem Encoding.fadd (rd rs1 rs2 : RegNum) : Encoding.Statement (.fadd rd rs1 rs2) := encoding_fields _
theorem Encoding.fsub (rd rs1 rs2 : RegNum) : Encoding.Statement (.fsub rd rs1 rs2) := encoding_fields _
theorem Encoding.fmul (rd rs1 rs2 : RegNum) : Encoding.Statement (.fmul rd rs1 rs2) := encoding_fields _
theorem Encoding.fsqr (rd rs1 : RegNum) : Encoding.Statement (.fsqr rd rs1) := encoding_fields _
theorem Encoding.finv (rd rs1 : RegNum) : Encoding.Statement (.finv rd rs1) := encoding_fields _
theorem Encoding.fcswap (rs1 rs2 : RegNum) (k : BitVec 8) : Encoding.Statement (.fcswap rs1 rs2 k) := encoding_fields _
theorem Encoding.ladder (rd rs1 : RegNum) : Encoding.Statement (.ladder rd rs1) := encoding_fields _

end Sys2Proof.Laws
end

