-- ==== Sys2Proof/Laws/State.lean ====
section
/-! SUPPORT. One lemma per field of the state per update of it. -/

namespace Sys2Proof.Machine

variable (s : State)

@[simp] theorem State.writeFR_fr (r : RegNum) (v : Reg256) : (s.writeFR r v).fr = s.fr.set r.toNat v r.isLt := rfl
@[simp] theorem State.writeFR_scalar (r : RegNum) (v : Reg256) : (s.writeFR r v).scalar = s.scalar := rfl
@[simp] theorem State.writeFR_err (r : RegNum) (v : Reg256) : (s.writeFR r v).err = s.err := rfl
@[simp] theorem State.writeFR_ecode (r : RegNum) (v : Reg256) : (s.writeFR r v).ecode = s.ecode := rfl
@[simp] theorem State.writeFR_inflight (r : RegNum) (v : Reg256) : (s.writeFR r v).inflight = s.inflight := rfl
@[simp] theorem State.writeFR_work (r : RegNum) (v : Reg256) : (s.writeFR r v).work = s.work := rfl
@[simp] theorem State.writeFR_resetDone (r : RegNum) (v : Reg256) : (s.writeFR r v).resetDone = s.resetDone := rfl
@[simp] theorem State.writeFR_events (r : RegNum) (v : Reg256) : (s.writeFR r v).events = s.events := rfl
@[simp] theorem State.writeFR_reads (r : RegNum) (v : Reg256) : (s.writeFR r v).reads = s.reads := rfl

@[simp] theorem State.writeField_fr (r : RegNum) (v : Nat) : (s.writeField r v).fr = s.fr.set r.toNat (BitVec.ofNat 256 v) r.isLt := rfl
@[simp] theorem State.writeField_scalar (r : RegNum) (v : Nat) : (s.writeField r v).scalar = s.scalar := rfl
@[simp] theorem State.writeField_err (r : RegNum) (v : Nat) : (s.writeField r v).err = s.err := rfl
@[simp] theorem State.writeField_ecode (r : RegNum) (v : Nat) : (s.writeField r v).ecode = s.ecode := rfl
@[simp] theorem State.writeField_inflight (r : RegNum) (v : Nat) : (s.writeField r v).inflight = s.inflight := rfl
@[simp] theorem State.writeField_work (r : RegNum) (v : Nat) : (s.writeField r v).work = s.work := rfl
@[simp] theorem State.writeField_resetDone (r : RegNum) (v : Nat) : (s.writeField r v).resetDone = s.resetDone := rfl
@[simp] theorem State.writeField_events (r : RegNum) (v : Nat) : (s.writeField r v).events = s.events := rfl
@[simp] theorem State.writeField_reads (r : RegNum) (v : Nat) : (s.writeField r v).reads = s.reads := rfl

@[simp] theorem State.clearError_fr : (s.clearError).fr = s.fr := rfl
@[simp] theorem State.clearError_scalar : (s.clearError).scalar = s.scalar := rfl
@[simp] theorem State.clearError_err : (s.clearError).err = false := rfl
@[simp] theorem State.clearError_ecode : (s.clearError).ecode = 0 := rfl
@[simp] theorem State.clearError_inflight : (s.clearError).inflight = s.inflight := rfl
@[simp] theorem State.clearError_work : (s.clearError).work = s.work := rfl
@[simp] theorem State.clearError_resetDone : (s.clearError).resetDone = s.resetDone := rfl
@[simp] theorem State.clearError_events : (s.clearError).events = s.events := rfl
@[simp] theorem State.clearError_reads : (s.clearError).reads = s.reads := rfl

@[simp] theorem State.issue_fr (i : Instr) : (s.issue i).fr = s.fr := rfl
@[simp] theorem State.issue_scalar (i : Instr) : (s.issue i).scalar = s.scalar := rfl
@[simp] theorem State.issue_err (i : Instr) : (s.issue i).err = s.err := rfl
@[simp] theorem State.issue_ecode (i : Instr) : (s.issue i).ecode = s.ecode := rfl
@[simp] theorem State.issue_inflight (i : Instr) : (s.issue i).inflight = some { instr := i, snap := s.capture i } := rfl
@[simp] theorem State.issue_work (i : Instr) : (s.issue i).work = workStart i (s.capture i) := rfl
@[simp] theorem State.issue_resetDone (i : Instr) : (s.issue i).resetDone = s.resetDone := rfl
@[simp] theorem State.issue_events (i : Instr) : (s.issue i).events = s.events := rfl
@[simp] theorem State.issue_reads (i : Instr) : (s.issue i).reads = s.reads := rfl

@[simp] theorem State.retire_fr : (s.retire).fr = s.fr := rfl
@[simp] theorem State.retire_scalar : (s.retire).scalar = s.scalar := rfl
@[simp] theorem State.retire_err : (s.retire).err = s.err := rfl
@[simp] theorem State.retire_ecode : (s.retire).ecode = s.ecode := rfl
@[simp] theorem State.retire_inflight : (s.retire).inflight = none := rfl
@[simp] theorem State.retire_work : (s.retire).work = .absent := rfl
@[simp] theorem State.retire_resetDone : (s.retire).resetDone = s.resetDone := rfl
@[simp] theorem State.retire_events : (s.retire).events = s.events := rfl
@[simp] theorem State.retire_reads : (s.retire).reads = s.reads := rfl

@[simp] theorem State.memRead_fr (off : Offset) : (s.memRead off).fr = s.fr := rfl
@[simp] theorem State.memRead_scalar (off : Offset) : (s.memRead off).scalar = s.scalar := rfl
@[simp] theorem State.memRead_err (off : Offset) : (s.memRead off).err = s.err := rfl
@[simp] theorem State.memRead_ecode (off : Offset) : (s.memRead off).ecode = s.ecode := rfl
@[simp] theorem State.memRead_inflight (off : Offset) : (s.memRead off).inflight = s.inflight := rfl
@[simp] theorem State.memRead_work (off : Offset) : (s.memRead off).work = s.work := rfl
@[simp] theorem State.memRead_resetDone (off : Offset) : (s.memRead off).resetDone = s.resetDone := rfl
@[simp] theorem State.memRead_events (off : Offset) : (s.memRead off).events = s.events := rfl
@[simp] theorem State.memRead_reads (off : Offset) : (s.memRead off).reads = windowRead s off :: s.reads := rfl

@[simp] theorem State.resetBlock_fr : (s.resetBlock).fr = Vector.replicate 16 0 := rfl
@[simp] theorem State.resetBlock_scalar : (s.resetBlock).scalar = 0 := rfl
@[simp] theorem State.resetBlock_err : (s.resetBlock).err = false := rfl
@[simp] theorem State.resetBlock_ecode : (s.resetBlock).ecode = 0 := rfl
@[simp] theorem State.resetBlock_inflight : (s.resetBlock).inflight = none := rfl
@[simp] theorem State.resetBlock_work : (s.resetBlock).work = .absent := rfl
@[simp] theorem State.resetBlock_resetDone : (s.resetBlock).resetDone = true := rfl
@[simp] theorem State.resetBlock_events : (s.resetBlock).events = s.events := rfl
@[simp] theorem State.resetBlock_reads : (s.resetBlock).reads = s.reads := rfl

@[simp] theorem State.raise_fr (e : ErrorCode) : (s.raise e).fr = s.fr := by unfold State.raise; split <;> rfl
@[simp] theorem State.raise_scalar (e : ErrorCode) : (s.raise e).scalar = s.scalar := by unfold State.raise; split <;> rfl
@[simp] theorem State.raise_err (e : ErrorCode) : (s.raise e).err = true := by unfold State.raise; split <;> simp_all
@[simp] theorem State.raise_ecode (e : ErrorCode) : (s.raise e).ecode = if s.err then s.ecode else errorNumber e := by unfold State.raise; split <;> simp_all
@[simp] theorem State.raise_inflight (e : ErrorCode) : (s.raise e).inflight = s.inflight := by unfold State.raise; split <;> rfl
@[simp] theorem State.raise_work (e : ErrorCode) : (s.raise e).work = s.work := by unfold State.raise; split <;> rfl
@[simp] theorem State.raise_resetDone (e : ErrorCode) : (s.raise e).resetDone = s.resetDone := by unfold State.raise; split <;> rfl
@[simp] theorem State.raise_events (e : ErrorCode) : (s.raise e).events = s.events := by unfold State.raise; split <;> rfl
@[simp] theorem State.raise_reads (e : ErrorCode) : (s.raise e).reads = s.reads := by unfold State.raise; split <;> rfl

@[simp] theorem State.coreWork_fr : (s.coreWork).fr = s.fr := by unfold State.coreWork; split <;> rfl
@[simp] theorem State.coreWork_scalar : (s.coreWork).scalar = s.scalar := by unfold State.coreWork; split <;> rfl
@[simp] theorem State.coreWork_err : (s.coreWork).err = s.err := by unfold State.coreWork; split <;> rfl
@[simp] theorem State.coreWork_ecode : (s.coreWork).ecode = s.ecode := by unfold State.coreWork; split <;> rfl
@[simp] theorem State.coreWork_inflight : (s.coreWork).inflight = s.inflight := by unfold State.coreWork; split <;> rfl
@[simp] theorem State.coreWork_work : (s.coreWork).work = match s.inflight with | none => s.work | some f => workIter f.snap s.work := by unfold State.coreWork; split <;> simp_all
@[simp] theorem State.coreWork_resetDone : (s.coreWork).resetDone = s.resetDone := by unfold State.coreWork; split <;> rfl
@[simp] theorem State.coreWork_events : (s.coreWork).events = s.events := by unfold State.coreWork; split <;> rfl
@[simp] theorem State.coreWork_reads : (s.coreWork).reads = s.reads := by unfold State.coreWork; split <;> rfl

@[simp] theorem State.busy_eq_true : s.busy = true ↔ ∃ f, s.inflight = some f := by
  simp [State.busy, Option.isSome_iff_exists]

@[simp] theorem State.busy_eq_false : s.busy = false ↔ s.inflight = none := by
  simp [State.busy]

end Sys2Proof.Machine
end

