-- ==== Sys2Proof/Laws/Regs.lean ====
section
/-! SUPPORT. Reading a field register after each update, and the words of a 256-bit register. -/

namespace Sys2Proof.Machine

/-! ### Field registers -/

theorem State.readFR_congr {s t : State} (h : t.fr = s.fr) (r : RegNum) : t.readFR r = s.readFR r := by
  simp [State.readFR, h]

theorem State.readFR_writeFR (s : State) (r q : RegNum) (v : Reg256) :
    (s.writeFR r v).readFR q = if q = r then v else s.readFR q := by
  unfold State.readFR State.writeFR
  rw [Vector.getElem_set]
  by_cases h : q = r
  · simp [h]
  · have hne : r.toNat ≠ q.toNat := fun e => h (BitVec.eq_of_toNat_eq e.symm)
    simp [h, hne]

@[simp] theorem State.readFR_writeFR_same (s : State) (r : RegNum) (v : Reg256) : (s.writeFR r v).readFR r = v := by
  simp [State.readFR_writeFR]

theorem State.readFR_writeFR_other (s : State) {r q : RegNum} (h : q ≠ r) (v : Reg256) :
    (s.writeFR r v).readFR q = s.readFR q := by
  simp [State.readFR_writeFR, h]

/-- Two states with the same field registers read the same at every number, and conversely. -/
theorem State.fr_ext {s t : State} (h : ∀ r, s.readFR r = t.readFR r) : s.fr = t.fr := by
  apply Vector.ext
  intro i hi
  have := h (BitVec.ofNat 4 i)
  simpa [State.readFR, Nat.mod_eq_of_lt hi] using this

@[simp] theorem State.readFR_raise (s : State) (e : ErrorCode) (r : RegNum) : (s.raise e).readFR r = s.readFR r :=
  State.readFR_congr (by simp) r

@[simp] theorem State.readFR_clearError (s : State) (r : RegNum) : s.clearError.readFR r = s.readFR r := rfl

@[simp] theorem State.readFR_issue (s : State) (i : Instr) (r : RegNum) : (s.issue i).readFR r = s.readFR r := rfl

@[simp] theorem State.readFR_retire (s : State) (r : RegNum) : s.retire.readFR r = s.readFR r := rfl

@[simp] theorem State.readFR_memRead (s : State) (off : Offset) (r : RegNum) : (s.memRead off).readFR r = s.readFR r := rfl

@[simp] theorem State.readFR_coreWork (s : State) (r : RegNum) : s.coreWork.readFR r = s.readFR r :=
  State.readFR_congr (by simp) r

@[simp] theorem State.readFR_resetBlock (s : State) (r : RegNum) : s.resetBlock.readFR r = 0 := by
  simp [State.readFR]

@[simp] theorem State.readFR_reset (r : RegNum) : State.reset.readFR r = 0 := by
  simp [State.readFR, State.reset]

/-- A snapshot taken now depends on the registers and SCALAR alone. -/
theorem State.capture_congr {s t : State} (hfr : t.fr = s.fr) (hsc : t.scalar = s.scalar) (i : Instr) :
    t.capture i = s.capture i := by
  simp [State.capture, State.readFR_congr hfr, hsc]

/-! ### Words of a register (R38, R40) -/

/-- The 32 low bits. -/
theorem getLsbD_wordMask (b : Nat) : ((BitVec.allOnes 32).setWidth 256).getLsbD b = decide (b < 32) := by
  rw [BitVec.getLsbD_setWidth, BitVec.getLsbD_allOnes]
  by_cases h : b < 32 <;> simp [h]
  omega

theorem getLsbD_setWord (v : Reg256) (j : WordNum) (w : Word) (b : Nat) (hb : b < 256) :
    (setWord v j w).getLsbD b =
      if 32 * j.toNat ≤ b ∧ b < 32 * j.toNat + 32 then w.getLsbD (b - 32 * j.toNat) else v.getLsbD b := by
  rw [setWord, BitVec.getLsbD_or, BitVec.getLsbD_and, BitVec.getLsbD_not, BitVec.getLsbD_shiftLeft,
    BitVec.getLsbD_shiftLeft, getLsbD_wordMask, BitVec.getLsbD_setWidth]
  by_cases hlo : b < 32 * j.toNat
  · simp [hb, hlo, show ¬ 32 * j.toNat ≤ b by omega]
  · by_cases hhi : b < 32 * j.toNat + 32
    · simp [hb, hlo, hhi, show b - 32 * j.toNat < 32 by omega, show 32 * j.toNat ≤ b by omega,
        show b - 32 * j.toNat < 256 by omega]
    · simp [hb, hlo, hhi, show ¬ b - 32 * j.toNat < 32 by omega, BitVec.getLsbD_of_ge w (b - 32 * j.toNat) (by omega)]

@[simp] theorem getWord_setWord_same (v : Reg256) (j : WordNum) (w : Word) : getWord (setWord v j w) j = w := by
  have hj := j.isLt
  apply BitVec.eq_of_getLsbD_eq
  intro b hb
  rw [getWord, BitVec.getLsbD_extractLsb', getLsbD_setWord _ _ _ _ (by omega)]
  simp [hb]

theorem getWord_setWord_other (v : Reg256) {j q : WordNum} (h : q ≠ j) (w : Word) :
    getWord (setWord v j w) q = getWord v q := by
  have hj := j.isLt
  have hq := q.isLt
  have hne : q.toNat ≠ j.toNat := fun e => h (BitVec.eq_of_toNat_eq e)
  apply BitVec.eq_of_getLsbD_eq
  intro b hb
  rw [getWord, BitVec.getLsbD_extractLsb', getLsbD_setWord _ _ _ _ (by omega), if_neg (by omega)]
  simp [getWord, hb]

end Sys2Proof.Machine
end

