-- ==== Sys2Proof/Laws/Step.lean ====
section
/-! SUPPORT. What each shared operation and a step can do, said once: later proofs cite these and unfold nothing. -/

namespace Sys2Proof.Machine

/-! ### The commands over `runCommand` -/

/-- How a command writes its result from its snapshot. -/
def commitOf (i : Instr) (v : Snapshot) (t : State) : State :=
  match i with
  | .fadd rd _ _ => t.writeField rd (fieldAdd v.x.toNat v.y.toNat)
  | .fsub rd _ _ => t.writeField rd (fieldSub v.x.toNat v.y.toNat)
  | .fmul rd _ _ => t.writeField rd (fieldMul v.x.toNat v.y.toNat)
  | .fsqr rd _ => t.writeField rd (fieldSqr v.x.toNat)
  | .finv rd _ => t.writeField rd (fieldInv v.x.toNat)
  | .fcswap rs1 rs2 k =>
    (t.writeFR rs1 (cswap (v.scalarBit k) (v.x, v.y)).1).writeFR rs2 (cswap (v.scalarBit k) (v.x, v.y)).2
  | .ladder rd _ => t.writeField rd (ladderValue v.scalar v.x.toNat)

theorem exec_eq_runCommand (i : Instr) (s : State) : exec i s = runCommand i (commitOf i) s := by
  cases i <;> rfl

/-- The registers after the result is written are a function of the snapshot and the registers before. -/
theorem commitOf_eq (i : Instr) (v : Snapshot) (s : State) : commitOf i v s = { s with fr := (commitOf i v s).fr } := by
  cases i <;> rfl

theorem readFR_commitOf_other (i : Instr) (v : Snapshot) (s : State) {r : RegNum} (h : r ∉ destinations i) :
    (commitOf i v s).readFR r = s.readFR r := by
  cases i <;> simp_all [commitOf, destinations, State.writeField, State.readFR_writeFR]

/-- A destination register depends on the snapshot alone. -/
theorem readFR_commitOf_destination (i : Instr) (v : Snapshot) (s s' : State) {r : RegNum} (h : r ∈ destinations i) :
    (commitOf i v s).readFR r = (commitOf i v s').readFR r := by
  cases i
  case fcswap a b k =>
    simp only [commitOf, State.readFR_writeFR]
    by_cases hb : r = b
    · simp [hb]
    · have ha : r = a := by simpa [destinations, hb] using h
      simp [ha]
  all_goals simp_all [commitOf, destinations, State.writeField]

theorem runCommand_idle {i : Instr} {c : Snapshot → State → State} {s : State} (h : s.inflight = none) :
    runCommand i c s = .next (c (s.capture i) s).retire := by
  simp [runCommand, h]

theorem runCommand_inflight {i : Instr} {c : Snapshot → State → State} {s : State} {v : Snapshot}
    (h : s.inflight = some { instr := i, snap := v }) : runCommand i c s = .next (c v s).retire := by
  simp [runCommand, h]

theorem runCommand_other {i : Instr} {c : Snapshot → State → State} {s : State} {f : InFlight}
    (h : s.inflight = some f) (hne : f.instr ≠ i) : runCommand i c s = .next (s.raise .busyWrite) := by
  simp [runCommand, h, hne]

/-- A command that can run answers a next state: its result written, nothing in flight. -/
theorem exec_of_canRun {i : Instr} {s : State} {v : Snapshot} (h : s.CanRun i v) :
    exec i s = .next (commitOf i v s).retire := by
  rw [exec_eq_runCommand]
  rcases h with ⟨hn, rfl⟩ | hf
  · exact runCommand_idle hn
  · exact runCommand_inflight hf

/-- With no other command in flight, the operands a command reads are those a snapshot would take now. -/
theorem canRun_of_ready {i : Instr} {s : State} (h : s.Ready i) : s.CanRun i (s.capture i) := by
  obtain ⟨hs, hi⟩ := h
  cases hf : s.inflight with
  | none => exact .inl ⟨hf, rfl⟩
  | some f =>
    have h1 := hi f hf
    have h2 := hs f hf
    subst h1
    exact .inr (by rw [hf, ← h2])

/-- With nothing in flight every command is ready. -/
theorem ready_of_idle {s : State} (h : s.inflight = none) (i : Instr) : s.Ready i :=
  ⟨fun f hf => by simp [h] at hf, fun f hf => by simp [h] at hf⟩

/-- A command just issued is ready. -/
theorem ready_issue (s : State) (i : Instr) : (s.issue i).Ready i :=
  ⟨fun f hf => by cases hf; rfl, fun f hf => by cases hf; rfl⟩

theorem exec_of_ready {i : Instr} {s : State} (h : s.Ready i) :
    exec i s = .next (commitOf i (s.capture i) s).retire :=
  exec_of_canRun (canRun_of_ready h)

theorem completesWriting_commitOf (i : Instr) (v : Snapshot) (s : State) :
    CompletesWriting (destinations i) s (commitOf i v s).retire := by
  rw [commitOf_eq]
  exact ⟨fun r hr => readFR_commitOf_other i v s hr, rfl, rfl, rfl, rfl, rfl, rfl, rfl, rfl⟩

/-- `exec` always answers a next state: the command runs, or another is in flight and it is turned away. -/
theorem exec_cases (i : Instr) (s : State) :
    (∃ v, s.CanRun i v ∧ exec i s = .next (commitOf i v s).retire) ∨
      (∃ f, s.inflight = some f ∧ f.instr ≠ i ∧ exec i s = .next (s.raise .busyWrite)) := by
  cases hf : s.inflight with
  | none => exact .inl ⟨_, .inl ⟨hf, rfl⟩, exec_of_canRun (.inl ⟨hf, rfl⟩)⟩
  | some f =>
    by_cases he : f.instr = i
    · have h : s.CanRun i f.snap := .inr (by rw [hf, ← he])
      exact .inl ⟨_, h, exec_of_canRun h⟩
    · exact .inr ⟨f, rfl, he, by rw [exec_eq_runCommand]; exact runCommand_other hf he⟩

/-! ### The core's turn -/

theorem coreComplete_idle {s : State} (h : s.inflight = none) : coreComplete s = .next s := by
  simp [coreComplete, h]

theorem coreComplete_inflight {s : State} {f : InFlight} (h : s.inflight = some f) :
    coreComplete s = .next (commitOf f.instr f.snap s).retire := by
  simp only [coreComplete, h]
  exact exec_of_canRun (.inr h)

/-! ### A host write -/

/-- The six things a write can do (R36, R42, R43). -/
inductive WriteEffect (s : State) (off : Offset) (v : Word) : State → Prop
  | nothing : WriteEffect s off v s
  | clear : target off = .status → v.getLsbD 1 = true → WriteEffect s off v s.clearError
  | error (e : ErrorCode) (hs : target off ≠ .status) (hr : target off ≠ .reserved) : WriteEffect s off v (s.raise e)
  | issue (i : Instr) : target off = .cmd → s.inflight = none → decode v = .ok i → WriteEffect s off v (s.issue i)
  | scalar (j : WordNum) : target off = .scalar j → s.inflight = none →
      WriteEffect s off v { s with scalar := setWord s.scalar j v }
  | fr (i : RegNum) (j : WordNum) : target off = .fr i j → s.inflight = none →
      WriteEffect s off v (s.writeFR i (setWord (s.readFR i) j v))

theorem memWrite_effect (s : State) (off : Offset) (v : Word) : WriteEffect s off v (s.memWrite off v) := by
  unfold State.memWrite
  cases ht : target off with
  | cmd =>
    simp only [State.writeCmd]
    split
    · exact .error _ (by simp [ht]) (by simp [ht])
    · next hb =>
      split
      · exact .error _ (by simp [ht]) (by simp [ht])
      · next i hi => exact .issue i ht (by simpa [State.busy] using hb) hi
  | status =>
    simp only [State.writeStatus]
    split
    · next h => exact .clear ht h
    · exact .nothing
  | scalar j =>
    simp only [State.writeScalarWord]
    split
    · exact .error _ (by simp [ht]) (by simp [ht])
    · next hb => exact .scalar j ht (by simpa [State.busy] using hb)
  | fr i j =>
    simp only [State.writeFRWord]
    split
    · exact .error _ (by simp [ht]) (by simp [ht])
    · next hb => exact .fr i j ht (by simpa [State.busy] using hb)
  | reserved => exact .nothing

/-! ### The events -/

/-- What one event does, when it has a meaning. -/
inductive EventEffect (s : State) (e : Event) : State → Prop
  | read (off : Offset) : EventEffect s e (s.memRead off)
  | write (off : Offset) (v : Word) (he : e.Writes off v) (t : State) (h : WriteEffect s off v t) : EventEffect s e t
  | reset (he : e = .reset) : EventEffect s e s.resetBlock
  | work : EventEffect s e s.coreWork
  | complete (f : InFlight) (he : e = .coreComplete) (hf : s.inflight = some f) :
      EventEffect s e (commitOf f.instr f.snap s).retire
  | idle : EventEffect s e s

theorem runEvent_effect {e : Event} {s t : State} (h : runEvent e s = .next t) : EventEffect s e t := by
  cases e with
  | memRead off => cases h; exact .read off
  | memWrite off v => cases h; exact .write off v (.inl rfl) _ (memWrite_effect s off v)
  | bus acc =>
    simp only [runEvent, State.busAccess] at h
    split at h
    · cases h
    · split at h
      · cases h
      · split at h
        · cases h; exact .read _
        · next v hv => cases h; exact .write _ v (.inr ⟨acc, rfl, hv, rfl⟩) _ (memWrite_effect s _ v)
  | reset => cases h; exact .reset rfl
  | coreWork => cases h; exact .work
  | coreComplete =>
    cases hf : s.inflight with
    | none => rw [runEvent, coreComplete_idle hf] at h; cases h; exact .idle
    | some f => rw [runEvent, coreComplete_inflight hf] at h; cases h; exact .complete f rfl hf

/-- An event with a meaning is never refused. -/
theorem runEvent_total {e : Event} (s : State) (h : e.InScope) : ∃ t, runEvent e s = .next t := by
  cases e with
  | bus acc =>
    obtain ⟨h1, h2, h3⟩ := h
    simp only [runEvent, State.busAccess]
    rw [if_neg (by omega), if_neg (by simp [h3])]
    split <;> exact ⟨_, rfl⟩
  | coreComplete =>
    cases hf : s.inflight with
    | none => exact ⟨_, coreComplete_idle hf⟩
    | some f => exact ⟨_, coreComplete_inflight hf⟩
  | _ => exact ⟨_, rfl⟩

/-! ### The step -/

theorem step_event {s : State} {e : Event} {rest : List Event} (hr : s.resetDone = true) (he : s.events = e :: rest) :
    step s = runEvent e { s with events := rest } := by
  simp [step, hr, runNext, he]

theorem step_silent {s : State} (hr : s.resetDone = true) (he : s.events = []) : step s = coreComplete s := by
  simp [step, hr, runNext, he]

/-- A step with a next state is a first reset, the completion that ends a silent host's wait, idling, or an event. -/
theorem step_cases {s t : State} (h : step s = .next t) :
    (∃ rest, s.resetDone = false ∧ s.events = .reset :: rest ∧ t = State.resetBlock { s with events := rest }) ∨
    (∃ f, s.events = [] ∧ s.inflight = some f ∧ t = (commitOf f.instr f.snap s).retire) ∨
    (s.events = [] ∧ s.inflight = none ∧ t = s) ∨
    (∃ e rest, s.resetDone = true ∧ s.events = e :: rest ∧ EventEffect { s with events := rest } e t) := by
  cases hr : s.resetDone with
  | false =>
    simp only [step, hr, runBeforeReset] at h
    split at h
    · next hnot => cases hnot
    · split at h
      · next rest he => cases h; exact .inl ⟨rest, rfl, he, rfl⟩
      · cases h
  | true =>
    cases he : s.events with
    | nil =>
      rw [step_silent hr he] at h
      cases hf : s.inflight with
      | none => rw [coreComplete_idle hf] at h; cases h; exact .inr (.inr (.inl ⟨rfl, rfl, rfl⟩))
      | some f => rw [coreComplete_inflight hf] at h; cases h; exact .inr (.inl ⟨f, rfl, rfl, rfl⟩)
    | cons e rest =>
      rw [step_event hr he] at h
      exact .inr (.inr (.inr ⟨e, rest, rfl, rfl, hr ▸ runEvent_effect h⟩))

/-! ### Runs -/

theorem runSteps_succ {n : Nat} {s t : State} (h : step s = .next t) : runSteps (n + 1) s = runSteps n t := by
  simp [runSteps, h]

/-- A run in two parts. -/
theorem runSteps_add {m n : Nat} {s t : State} (h : runSteps m s = .next t) : runSteps (m + n) s = runSteps n t := by
  induction m generalizing s with
  | zero => cases h; simp
  | succ m ih =>
    cases hs : step s with
    | next u => rw [runSteps_succ hs] at h; rw [show m + 1 + n = m + n + 1 by omega, runSteps_succ hs]; exact ih h
    | fault r => cases r
    | refused r => simp [runSteps, hs] at h

/-- The model's own run is the host's. -/
theorem runSteps_eq_core_run (n : Nat) (s : State) : runSteps n s = Host.Core.run Sys2Proof.core n s := by
  induction n generalizing s with
  | zero => rfl
  | succ n ih =>
    have hstep : Sys2Proof.core.step s = step s := rfl
    cases h : step s <;> simp [runSteps, Host.Core.run, hstep, h, ih] <;> rfl

end Sys2Proof.Machine
end

