-- ==== Sys2Proof/Laws/Window.lean ====
section
/-! SUPPORT. The address map of R35 in numbers, and what a write to each target does. -/

namespace Sys2Proof.Machine

/-- The byte offset of the word an access goes to: `off AND 0xFFC` as a number (R37). -/
def wordOffset (off : Offset) : Nat := off.toNat / 4 * 4

/-- The address map of R35, in numbers. Evaluated at each of the 4096 offsets. -/
theorem target_eq : ∀ off : Offset,
    target off =
      if wordOffset off = 0x000 then .cmd
      else if wordOffset off = 0x004 then .status
      else if 0x040 ≤ wordOffset off ∧ wordOffset off ≤ 0x05C then
        .scalar (BitVec.ofNat 3 ((wordOffset off - 0x040) / 4))
      else if 0x100 ≤ wordOffset off ∧ wordOffset off ≤ 0x2FC then
        .fr (BitVec.ofNat 4 ((wordOffset off - 0x100) / 0x20)) (BitVec.ofNat 3 ((wordOffset off - 0x100) % 0x20 / 4))
      else .reserved := by
  decide +kernel

/-- The word of an FR register or of SCALAR a busy block drops a write to, and CMD (R43). -/
theorem memWrite_busy {s : State} {f : InFlight} (h : s.inflight = some f) (off : Offset) (v : Word)
    (hs : target off ≠ .status) (hr : target off ≠ .reserved) : s.memWrite off v = s.raise .busyWrite := by
  have hb : s.busy = true := by simp [h]
  unfold State.memWrite
  cases ht : target off <;>
    simp_all [State.writeCmd, State.writeScalarWord, State.writeFRWord]

/-- A write to STATUS (R21, R96). -/
theorem memWrite_status {s : State} {off : Offset} (v : Word) (h : target off = .status) :
    s.memWrite off v = if v.getLsbD 1 then s.clearError else s := by
  simp [State.memWrite, h, State.writeStatus]

/-- A write to a reserved offset (R36). -/
theorem memWrite_reserved {s : State} {off : Offset} (v : Word) (h : target off = .reserved) : s.memWrite off v = s := by
  simp [State.memWrite, h]

/-- A write to a word of an idle block's SCALAR (R40, R42). -/
theorem memWrite_scalar {s : State} {off : Offset} {j : WordNum} (v : Word) (hn : s.inflight = none)
    (h : target off = .scalar j) : s.memWrite off v = { s with scalar := setWord s.scalar j v } := by
  have hb : s.busy = false := by simp [hn]
  simp [State.memWrite, h, State.writeScalarWord, hb]

/-- A write to a word of an idle block's FR register (R38, R42). -/
theorem memWrite_fr {s : State} {off : Offset} {i : RegNum} {j : WordNum} (v : Word) (hn : s.inflight = none)
    (h : target off = .fr i j) : s.memWrite off v = s.writeFR i (setWord (s.readFR i) j v) := by
  have hb : s.busy = false := by simp [hn]
  simp [State.memWrite, h, State.writeFRWord, hb]

/-- What a read returns depends on the registers and STATUS alone (R33). -/
theorem windowRead_congr {s t : State} (hfr : t.fr = s.fr) (hsc : t.scalar = s.scalar) (hst : statusWord t = statusWord s)
    (off : Offset) : windowRead t off = windowRead s off := by
  unfold windowRead
  split <;> simp [hsc, hst, State.readFR_congr hfr]

end Sys2Proof.Machine
end

