-- ==== Sys2Proof/Machine/Asm.lean ====
section
/-! DEFINITION. The assembler syntax of R62: a command as text, a line of text as a command. Host tooling, no part of the block. -/

namespace Sys2Proof.Machine

/-! ### Disassembler -/

/-- `F0` to `F15` (R62). -/
def regText (r : RegNum) : String := "F" ++ Nat.repr r.toNat

/-- A command in the forms of R62. -/
def asmText : Instr → String
  | .fadd d a b => "FADD " ++ regText d ++ ", " ++ regText a ++ ", " ++ regText b
  | .fsub d a b => "FSUB " ++ regText d ++ ", " ++ regText a ++ ", " ++ regText b
  | .fmul d a b => "FMUL " ++ regText d ++ ", " ++ regText a ++ ", " ++ regText b
  | .fsqr d a => "FSQR " ++ regText d ++ ", " ++ regText a
  | .finv d a => "FINV " ++ regText d ++ ", " ++ regText a
  | .fcswap a b k => "FCSWAP " ++ regText a ++ ", " ++ regText b ++ ", " ++ Nat.repr k.toNat
  | .ladder d u => "LADDER " ++ regText d ++ ", " ++ regText u

/-- A hexadecimal digit. DESIGN CHOICE: lower case, as the spec writes its words; log 13. -/
def hexDigit (n : BitVec 4) : Char :=
  if n.toNat < 10 then Char.ofNat (48 + n.toNat) else Char.ofNat (87 + n.toNat)

/-- Eight hexadecimal digits, the most significant first. -/
def hexWord (w : Word) : String :=
  String.ofList ([7, 6, 5, 4, 3, 2, 1, 0].map fun j => hexDigit (w.extractLsb' (4 * j) 4))

/-- A word as text; one that matches no row is printed as `.word 0xHHHHHHHH` (R62). -/
def disassemble (w : Word) : String :=
  match decode w with
  | .ok i => asmText i
  | .error _ => ".word 0x" ++ hexWord w

/-! ### Assembler. DESIGN CHOICE: blanks are spaces and tabs, and mnemonics and F are capitals; log 13. -/

def isBlank (c : Char) : Bool := c == ' ' || c == '\t'

/-- The text without the blanks around it. -/
def trimBlanks (cs : List Char) : List Char := ((cs.dropWhile isBlank).reverse.dropWhile isBlank).reverse

/-- The text cut at every comma. -/
def cutCommas : List Char → List (List Char)
  | [] => [[]]
  | c :: rest =>
    match cutCommas rest with
    | [] => [[c]]
    | part :: parts => if c == ',' then [] :: part :: parts else (c :: part) :: parts

/-- A decimal numeral, read after the value `acc`. -/
def decimalFrom (acc : Nat) : List Char → Option Nat
  | [] => some acc
  | c :: rest => if c.isDigit then decimalFrom (10 * acc + (c.toNat - 48)) rest else none

/-- A decimal number below `bound`. -/
def decimalBelow (bound : Nat) (cs : List Char) : Option Nat :=
  match cs with
  | [] => none
  | c :: rest =>
    match decimalFrom 0 (c :: rest) with
    | some n => if n < bound then some n else none
    | none => none

/-- `F0` to `F15` (R62). -/
def parseReg (cs : List Char) : Option RegNum :=
  match cs with
  | 'F' :: digits => (decimalBelow 16 digits).map (BitVec.ofNat 4)
  | _ => none

/-- `k`, a decimal integer 0 to 255 (R62). -/
def parseK (cs : List Char) : Option (BitVec 8) := (decimalBelow 256 cs).map (BitVec.ofNat 8)

def parseThree (f : RegNum → RegNum → RegNum → Instr) (ops : List (List Char)) : Option Instr :=
  match ops.map parseReg with
  | [some d, some a, some b] => some (f d a b)
  | _ => none

def parseTwo (f : RegNum → RegNum → Instr) (ops : List (List Char)) : Option Instr :=
  match ops.map parseReg with
  | [some d, some a] => some (f d a)
  | _ => none

def parseSwap (ops : List (List Char)) : Option Instr :=
  match ops with
  | [a, b, k] =>
    match parseReg a, parseReg b, parseK k with
    | some a, some b, some k => some (.fcswap a b k)
    | _, _, _ => none
  | _ => none

/-- One line of the assembler: a mnemonic, operands separated by commas, a comment after `;` (R62). -/
def assemble (line : String) : Option Instr :=
  let text := trimBlanks (line.toList.takeWhile (fun c => c != ';'))
  let mnemonic := text.takeWhile (fun c => !isBlank c)
  let ops := (cutCommas (text.dropWhile (fun c => !isBlank c))).map trimBlanks
  if mnemonic = ['F', 'A', 'D', 'D'] then parseThree .fadd ops
  else if mnemonic = ['F', 'S', 'U', 'B'] then parseThree .fsub ops
  else if mnemonic = ['F', 'M', 'U', 'L'] then parseThree .fmul ops
  else if mnemonic = ['F', 'S', 'Q', 'R'] then parseTwo .fsqr ops
  else if mnemonic = ['F', 'I', 'N', 'V'] then parseTwo .finv ops
  else if mnemonic = ['F', 'C', 'S', 'W', 'A', 'P'] then parseSwap ops
  else if mnemonic = ['L', 'A', 'D', 'D', 'E', 'R'] then parseTwo .ladder ops
  else none

end Sys2Proof.Machine
end

