-- ==== Sys2Proof/Tests/Slice0.lean ====
section
/-! SUPPORT. Tests against the spec's own words and vectors (30_encoding.md, 95_test_vectors.md), and a witness for every statement
that has hypotheses. -/

namespace Sys2Proof.Tests

open Sys2Proof Sys2Proof.Machine

/-! ### Helpers: a small state, and what an outcome holds -/

/-- The block after reset with `x` in FR1, `y` in FR2, `k` in SCALAR and these events to come. -/
def testState (x y k : Reg256) (es : List Event) : State :=
  { State.reset with fr := ((Vector.replicate 16 0).set 1 x).set 2 y, scalar := k, events := es }

/-- The same with `FMUL F0, F1, F2` in flight. -/
def busyState (x y k : Reg256) (es : List Event) : State := (testState x y k es).issue (.fmul 0 1 2)

/-- The same with an error recorded. -/
def errorState (n : BitVec 4) (es : List Event) : State := { testState 0 0 0 es with err := true, ecode := n }

/-- What is seen of the state an outcome holds. -/
def seen {α : Type} (f : State → α) : Host.Outcome State Fault Refusal → Option α
  | .next t => some (f t)
  | .fault _ => none
  | .refused _ => none

/-- The value a command leaves in a register of a state with `x` in FR1, `y` in FR2 and `k` in SCALAR. -/
def result (i : Instr) (r : RegNum) (x y k : Reg256) : Option Nat :=
  seen (fun t => (t.readFR r).toNat) (exec i (testState x y k []))

/-- STATUS after a step. -/
def statusAfter (s : State) : Option Word := seen statusWord (step s)

/-- 2^256 - 1, `M` of 95_test_vectors.md. -/
def maxReg : Reg256 := BitVec.allOnes 256
def pReg : Reg256 := BitVec.ofNat 256 (2 ^ 255 - 19)
/-- The scalar of L1.1. -/
def sourceScalar : Reg256 := 0x48fe0946b0125a606e8d7a95cdcc6c490a035468a535c9d7640498513ab2d760
/-- The result of L1.1. -/
def sourceResult : Nat := 0x682a8a79fd8dab32a5e0ff2313fb911fbfeab84091d45244b17fa02d32bfcf20

/-! ### WellFormed smoke: words that are no command, one for each check (L2.8 V8.1 to V8.7, R58, R59) -/

theorem test_illformed_opcode :
    [(0x00000000 : Word), 0x00000006, 0x0000000f, 0x00000011, 0x0000001f, 0x00000021, 0xffffffff].all
      (fun w => !wellFormedWord w && decide (decodeTableWord 32 w.toNat = none)) = true := by decide +kernel

theorem test_illformed_format_r : wellFormedWord 0x00f00001 = false ∧ wellFormedWord 0x00100002 = false ∧
    wellFormedWord 0x80000003 = false := by decide

theorem test_illformed_format_u : wellFormedWord 0x00100004 = false ∧ wellFormedWord 0x00010005 = false ∧
    wellFormedWord 0x80000020 = false := by decide

theorem test_illformed_format_s : wellFormedWord 0x00000110 = false ∧ wellFormedWord 0x10000010 = false := by decide

theorem test_illformed_reasons :
    decode 0x00000000 = .error .illegalOpcode ∧ decode 0xffffffff = .error .illegalOpcode ∧
    decode 0x00f00001 = .error .reservedField ∧ decode 0x00100004 = .error .reservedField ∧
    decode 0x00000110 = .error .reservedField ∧ decode 0x10000010 = .error .reservedField := by
  refine ⟨?_, ?_, ?_, ?_, ?_, ?_⟩ <;> rfl

/-- No two rows of R56 overlap: they differ in a bit that both fix. -/
theorem test_rows_disjoint :
    commandRows.Pairwise (fun a b => a.matchBits &&& b.mask ≠ b.matchBits &&& a.mask) := by decide

/-! ### Decoding: words written out from R51 to R53, R62 and L2.8 -/

theorem test_decode_fadd : decode 0b00000000000000100001000000000001 = .ok (.fadd 0 1 2) := rfl
theorem test_decode_fsub : decode 0b00000000000000100001000000000010 = .ok (.fsub 0 1 2) := rfl
theorem test_decode_fmul : decode 0b00000000000000010000001000000011 = .ok (.fmul 2 0 1) := rfl
theorem test_decode_fsqr : decode 0b00000000000000000100001100000100 = .ok (.fsqr 3 4) := rfl
theorem test_decode_finv : decode 0b00000000000000000000000100000101 = .ok (.finv 1 0) := rfl
theorem test_decode_fcswap : decode 0b00001111111000110010000000010000 = .ok (.fcswap 2 3 254) := rfl
theorem test_decode_ladder : decode 0b00000000000000000110100000100000 = .ok (.ladder 8 6) := rfl
theorem test_decode_boundary : decode 0x0ff00010 = .ok (.fcswap 0 0 255) ∧ decode 0x0000ff03 = .ok (.fmul 15 15 0) := ⟨rfl, rfl⟩

theorem test_encode :
    encode (.fadd 0 1 2) = 0x00021001 ∧ encode (.fsub 0 1 2) = 0x00021002 ∧ encode (.fmul 2 0 1) = 0x00010203 ∧
    encode (.fsqr 0 1) = 0x00001004 ∧ encode (.finv 0 1) = 0x00001005 ∧ encode (.fcswap 2 3 254) = 0x0fe32010 ∧
    encode (.ladder 8 6) = 0x00006820 := by decide

/-- The words of the table of R63 for `LSTEP 254`. -/
theorem test_lstep_words : (lstepCommands 254).map encode =
    [0x0fe10010, 0x0fe32010, 0x00020401, 0x00020002, 0x00031201, 0x00031102, 0x00004304, 0x00000504,
     0x00002003, 0x00041203, 0x00020401, 0x00020002, 0x00000104, 0x00053202, 0x00072003, 0x00030001,
     0x00002203, 0x00053003, 0x00061303, 0x00004104, 0x0fe10010, 0x0fe32010] := by decide

theorem test_disassemble : disassemble 0x0fe32010 = "FCSWAP F2, F3, 254" ∧ disassemble 0x00000006 = ".word 0x00000006" := by
  decide

theorem test_assemble : assemble "FCSWAP F2, F3, 254" = some (.fcswap 2 3 254) ∧
    assemble "  LADDER F8, F6   ; the ladder" = some (.ladder 8 6) ∧ assemble "FADD F0, F1, F16" = none := by decide

/-! ### Commands: the vectors of L2 -/

/-- V1.2, V1.3, V1.4, V1.5, V1.7. -/
theorem test_fadd : result (.fadd 0 1 2) 0 (pReg - 1) 1 0 = some 0 ∧
    result (.fadd 0 1 1) 0 (pReg - 1) 0 0 = some 0x7fffffffffffffffffffffffffffffffffffffffffffffffffffffffffffffeb ∧
    result (.fadd 0 1 2) 0 maxReg 0 0 = some 0x25 ∧ result (.fadd 1 1 2) 1 maxReg maxReg 0 = some 0x4a ∧
    result (.fadd 0 1 2) 0 0x8000000000000000000000000000000000000000000000000000000000000000 0 0 = some 0x13 := by decide

/-- V2.1, V2.3, V2.4, V2.5, V2.8. -/
theorem test_fsub : result (.fsub 0 1 2) 0 5 3 0 = some 2 ∧
    result (.fsub 0 1 2) 0 3 5 0 = some 0x7fffffffffffffffffffffffffffffffffffffffffffffffffffffffffffffeb ∧
    result (.fsub 0 1 2) 0 0 maxReg 0 = some 0x7fffffffffffffffffffffffffffffffffffffffffffffffffffffffffffffc8 ∧
    result (.fsub 2 1 2) 2 maxReg pReg 0 = some 0x25 ∧ result (.fsub 0 1 1) 0 maxReg 0 0 = some 0 := by decide

/-- V3.1, V3.2, V3.3, V3.4, V3.7. -/
theorem test_fmul : result (.fmul 0 1 2) 0 2 3 0 = some 6 ∧ result (.fmul 0 1 1) 0 (pReg - 1) 0 0 = some 1 ∧
    result (.fmul 0 1 1) 0 0x100000000000000000000000000000000 0 0 = some 0x26 ∧
    result (.fmul 1 1 2) 1 maxReg maxReg 0 = some 0x559 ∧ result (.fmul 0 1 2) 0 0x1db41 9 0 = some 0x10b549 := by decide

/-- V4.3, V4.4, V4.6, V4.8. -/
theorem test_fsqr : result (.fsqr 0 1) 0 9 0 0 = some 0x51 ∧ result (.fsqr 0 1) 0 (pReg - 1) 0 0 = some 1 ∧
    result (.fsqr 1 1) 1 maxReg 0 0 = some 0x559 ∧
    result (.fsqr 0 1) 0 0x2b8324804fc1df0b2b4d00993dfbd7a72f431806ad2fe478c4ee1b274a0ea0b0 0 0 = some (2 ^ 255 - 20) := by decide

/-- V5.3, V5.5, V5.10. -/
theorem test_finv :
    result (.finv 0 1) 0 9 0 0 = some 0x471c71c71c71c71c71c71c71c71c71c71c71c71c71c71c71c71c71c71c71c712 ∧
    result (.finv 0 1) 0 (pReg - 1) 0 0 = some (2 ^ 255 - 20) ∧
    result (.finv 1 1) 1 maxReg 0 0 = some 0x5d67c8a60dd67c8a60dd67c8a60dd67c8a60dd67c8a60dd67c8a60dd67c8a600 := by decide +kernel

/-- V5.6, V5.7, V5.8. -/
theorem test_finv_zero : result (.finv 0 1) 0 0 0 0 = some 0 ∧ result (.finv 0 1) 0 pReg 0 0 = some 0 ∧
    result (.finv 0 1) 0 (pReg + pReg) 0 0 = some 0 := by decide +kernel

/-- V6.a, V6.b: both registers of the pair. -/
theorem test_fcswap :
    result (.fcswap 1 2 254) 1 9 1 (BitVec.twoPow 256 254) = some 1 ∧ result (.fcswap 1 2 254) 2 9 1 (BitVec.twoPow 256 254) = some 9 ∧
    result (.fcswap 1 2 254) 1 9 1 0 = some 9 ∧ result (.fcswap 1 2 254) 2 9 1 0 = some 1 := by decide

/-- V6.c, V6.d, V6.e: an unreduced value, one register twice, bit 255. -/
theorem test_fcswap_corners : result (.fcswap 1 2 0) 2 maxReg 5 1 = some (2 ^ 256 - 1) ∧
    result (.fcswap 1 1 5) 1 7 0 maxReg = some 7 ∧ result (.fcswap 1 2 255) 1 9 1 (BitVec.twoPow 256 255) = some 1 := by decide

/-- L1.1, V6.13 (bit 255 of the base counts). -/
theorem test_ladder : result (.ladder 8 1) 8 9 0 sourceScalar = some sourceResult ∧
    result (.ladder 1 1) 1 (BitVec.twoPow 256 255 + 9) 0 sourceScalar =
      some 0x58f2b43527ed347c65a149145303a53502201057e2be77bca5b2c859df94b4f8 := by decide +kernel

/-- V6.1, V6.7, V6.8, V6.10, V6.14. -/
theorem test_ladder_corners : result (.ladder 8 1) 8 9 0 0 = some 0 ∧
    result (.ladder 8 1) 8 9 0 2 = some 0x20d342d51873f1b7d9750c687d1571148f3f5ced1e350b5c5cae469cdd684efb ∧
    result (.ladder 8 1) 8 1 0 1 = some 1 ∧ result (.ladder 8 1) 8 pReg 0 sourceScalar = some 0 ∧
    result (.ladder 8 1) 8 9 0 (sourceScalar ||| BitVec.twoPow 256 255) = some sourceResult := by decide +kernel

/-- L2.6, one ladder iteration: the ladder step after the swap, with its e and f. -/
theorem test_ladder_step :
    let v := ladderStep { a := 9, b := 1, c := 1, d := 0, e := 0, f := 0, x := 9, r := true, left := 254 }
    v.a = 0x1900 ∧ v.b = 0x144 ∧ v.c = 0x9660720 ∧ v.d = 0x24 ∧ v.e = 0x12 ∧ v.f = 0x40 := by decide

/-- L2.6, one ladder iteration: swap, step and swap back, for bit 254 of the source's scalar. -/
theorem test_ladder_iteration :
    let v := ladderIter sourceScalar (ladderInit 9)
    v.a = 0x144 ∧ v.b = 0x1900 ∧ v.c = 0x24 ∧ v.d = 0x9660720 ∧ v.left = 254 := by decide

/-- R13 and L1.1: the bits clamping changes, and a key that is clamped already. -/
theorem test_clamp : clamp (List.replicate 32 0xff) = 0xf8 :: (List.replicate 30 0xff ++ [0x7f]) ∧
    clamp (List.replicate 32 0) = List.replicate 31 0 ++ [0x40] ∧
    clamp (leBytes 32 sourceScalar.toNat) = leBytes 32 sourceScalar.toNat := by decide +kernel

/-- L1.1: the first bytes of the encoded result are those of the source's public key. -/
theorem test_encode_bytes : (encodeField sourceResult).take 4 = [0x20, 0xcf, 0xbf, 0x32] ∧
    decodeBytes (encodeField sourceResult) = sourceResult := by decide +kernel

/-! ### The window, STATUS and errors: L2.8, L3.3, L3.5 -/

/-- V8.1, V8.3, V8.4, V8.5, V8.7: STATUS after a word that is no command. -/
theorem test_bad_words : statusAfter (testState 0 0 0 [.memWrite 0x000 0x00000000]) = some 0x00000012 ∧
    statusAfter (testState 0 0 0 [.memWrite 0x000 0xffffffff]) = some 0x00000012 ∧
    statusAfter (testState 0 0 0 [.memWrite 0x000 0x00f00001]) = some 0x00000022 ∧
    statusAfter (testState 0 0 0 [.memWrite 0x000 0x00100004]) = some 0x00000022 ∧
    statusAfter (testState 0 0 0 [.memWrite 0x000 0x10000010]) = some 0x00000022 := by decide

/-- V8.11, V8.12 and L3.5: BUSY_WRITE has priority, and the first error is kept. -/
theorem test_error_order : statusAfter (busyState 2 0 0 [.memWrite 0x000 0x00000000]) = some 0x00000033 ∧
    statusAfter (errorState 2 [.memWrite 0x000 0x00000006]) = some 0x00000022 := by decide

/-- The STATUS writes of L2.8, on an error with code 1. -/
theorem test_status_writes : statusAfter (errorState 1 [.memWrite 0x004 0x1]) = some 0x00000012 ∧
    statusAfter (errorState 1 [.memWrite 0x004 0x2]) = some 0 ∧
    statusAfter (errorState 1 [.memWrite 0x004 0xfffffffd]) = some 0x00000012 := by decide

/-- V8.10, L3.3: a command's word makes the block busy and changes no register. -/
theorem test_issue : statusAfter (testState 0 0 0 [.memWrite 0x000 0x00006820]) = some 1 ∧
    seen (fun t => t.fr) (step (testState 5 6 0 [.memWrite 0x000 0x00021001])) = some (testState 5 6 0 []).fr := by decide

/-- L3.3: word 7 of SCALAR is its top word; L3.1: word 0 of FR3 is its lowest; R37: the low offset bits are ignored. -/
theorem test_words : windowRead (testState 0 0 sourceScalar []) 0x05c = 0x48fe0946 ∧
    windowRead (testState 0 0 sourceScalar []) 0x040 = 0x3ab2d760 ∧ windowRead (testState (pReg - 1) 0 0 []) 0x123 = 0xffffffec ∧
    windowRead (testState (pReg - 1) 0 0 []) 0x13c = 0x7fffffff := by decide

/-- L3.3: a write to word 0 of FR6. -/
theorem test_write_word : seen (fun t => (t.readFR 6, t.readFR 5, t.err)) (step (testState 0 0 0 [.memWrite 0x1c0 9])) = some (9, 0, false) := by
  decide

/-- L3.5 (c): a write to a busy block's FR1 is dropped. -/
theorem test_busy_write : seen (fun t => (t.readFR 1, t.ecode, t.busy)) (step (busyState 2 0 0 [.memWrite 0x120 5])) = some (2, 3, true) := by
  decide

/-- R41, R45: what reads of STATUS return before completion. -/
theorem test_read_status : seen (fun t => t.reads) (step (busyState 2 3 0 [.memRead 0x004])) = some [1] := by decide

/-- R107, R108: reset of a busy block. -/
theorem test_reset_busy : seen (fun t => (t.readFR 1, t.busy, t.work)) (step (busyState 2 3 4 [.reset])) = some (0, false, .absent) := by decide

/-- Placing a word runs it at once, right after reset. -/
theorem test_placed_word : step (State.reset.withFetchWord 32 0x00021001) = exec (.fadd 0 1 2) { State.reset.issue (.fadd 0 1 2) with events := [] } := rfl

/-! ### Witnesses: for each statement with hypotheses, states and operands that meet them, at the boundaries of its clauses -/

theorem witness_CommandWordsRoundTrip : (∃ row ∈ commandRows, (0x0ff00010 : Word) &&& row.mask = row.matchBits) ∧
    (∃ row ∈ commandRows, (0x0000ff03 : Word) &&& row.mask = row.matchBits) := by decide

theorem witness_EveryWordIsOfOneKind : (∃ i, decode 0x0000ff20 = .ok i) ∧
    (∃ row ∈ commandRows, (0x0000ff20 : Word) &&& row.mask = row.matchBits) ∧
    decode 0x00000006 = .error .illegalOpcode ∧ decode 0x00010020 = .error .reservedField :=
  ⟨⟨.ladder 15 15, rfl⟩, by decide, rfl, rfl⟩

/-- One word for each branch: busy, illegal, a set zero field of each format, and an issue. -/
theorem witness_CommandWriteDecodesAndIssues :
    let st := fun (w : Word) => testState 9 1 0 [.memWrite 0x000 w]
    let op := fun (w : Word) => w.extractLsb' 0 8
    let legal : List (BitVec 8) := [0x01, 0x02, 0x03, 0x04, 0x05, 0x10, 0x20]
    ((busyState 9 1 0 [.memWrite 0x000 0]).resetDone = true ∧ (busyState 9 1 0 [.memWrite 0x000 0]).busy = true) ∧
    ((st 0).resetDone = true ∧ (st 0).busy = false ∧ (st 0).events = [.memWrite 0x000 0]) ∧
    op 0x000000ff ∉ legal ∧ op 0x00100003 ∈ legal ∧ (0x00100003 : Word).extractLsb' 20 12 ≠ 0 ∧
    op 0x00010020 ∈ legal ∧ (0x00010020 : Word).extractLsb' 16 16 ≠ 0 ∧
    op 0x00000110 ∈ legal ∧ (0x00000110 : Word).extractLsb' 8 4 ≠ 0 ∧
    op 0x10000010 ∈ legal ∧ (0x10000010 : Word).extractLsb' 28 4 ≠ 0 ∧
    op 0x0fff_f010 ∈ legal ∧ (0x0ffff010 : Word).extractLsb' 8 4 = 0 ∧ (0x0ffff010 : Word).extractLsb' 28 4 = 0 := by decide

theorem witness_IllegalOpcodesRecordAnError :
    (testState 0 0 0 [.memWrite 0x000 0]).resetDone = true ∧ (testState 0 0 0 [.memWrite 0x000 0]).busy = false ∧
    ([0x00, 0x06, 0x0F, 0x11, 0x1F, 0x21, 0xFF] : List Nat).all (fun b =>
      b = 0x00 ∨ (0x06 ≤ b ∧ b ≤ 0x0F) ∨ (0x11 ≤ b ∧ b ≤ 0x1F) ∨ (0x21 ≤ b ∧ b ≤ 0xFF)) = true ∧
    (0xffffff00 : Word).toNat % 256 = 0x00 := by decide

theorem witness_RaiseKeepsTheFirstError : State.reset.err = false ∧ (errorState 3 []).err = true := by decide

/-- Offsets for each branch: CMD, the ends of SCALAR and FR, STATUS with and without bit 1, reserved. -/
theorem witness_BusyWritesAreDropped :
    (busyState 9 1 0 [.memWrite 0x05F 7]).resetDone = true ∧ (busyState 9 1 0 [.memWrite 0x05F 7]).busy = true ∧
    (busyState 9 1 0 [.memWrite 0x05F 7]).events = [.memWrite 0x05F 7] ∧
    ([0x000, 0x003, 0x040, 0x05F, 0x100, 0x2FF] : List Offset).all (fun off =>
      let o := off.toNat / 4 * 4
      o = 0x000 ∨ (0x040 ≤ o ∧ o ≤ 0x05C) ∨ (0x100 ≤ o ∧ o ≤ 0x2FC)) = true ∧
    ((0x007 : Offset).toNat / 4 * 4 = 0x004 ∧ (0x2 : Word).getLsbD 1 = true ∧ (0xfffffffd : Word).getLsbD 1 = false) ∧
    ([0x008, 0x03F, 0x060, 0x0FF, 0x300, 0xFFF] : List Offset).all (fun off =>
      let o := off.toNat / 4 * 4
      ¬ (o = 0x000 ∨ o = 0x004 ∨ (0x040 ≤ o ∧ o ≤ 0x05C) ∨ (0x100 ≤ o ∧ o ≤ 0x2FC))) = true := by decide

theorem witness_ErrorsAppearOnlyAtWrites : ∃ s t, step s = .next t ∧ s.err = false ∧ t.err = true :=
  ⟨busyState 9 1 0 [.memWrite 0x2FF 5], _, rfl, by decide, by decide⟩

theorem witness_ErrorsArePrecise :
    ((busyState 9 1 0 [.memWrite 0x040 5]).resetDone = true ∧ (busyState 9 1 0 [.memWrite 0x040 5]).busy = true) ∧
    ((testState 9 1 0 [.memWrite 0x003 6]).resetDone = true ∧ (testState 9 1 0 [.memWrite 0x003 6]).busy = false ∧
      (0x003 : Offset).toNat / 4 * 4 = 0x000) ∧ ∀ i, decode 6 ≠ .ok i :=
  ⟨by decide, by decide, fun _ h => by cases h⟩

theorem witness_OnlyStatusWriteOrResetClearsErrors :
    ((errorState 2 [.memWrite 0x004 2]).resetDone = true ∧ (errorState 2 [.memWrite 0x004 2]).events = [.memWrite 0x004 2]) ∧
    (∃ t, step (errorState 2 [.memWrite 0x006 2]) = .next t ∧ t.err = false) ∧
    ∃ t, step (errorState 2 [.reset]) = .next t ∧ (errorState 2 [.reset]).err = true ∧ t.err = false :=
  ⟨by decide, ⟨_, rfl, by decide⟩, ⟨_, rfl, by decide, by decide⟩⟩

theorem witness_ReadsFollowTheAddressMap :
    ([0x000, 0x003, 0x004, 0x008, 0x03C, 0x040, 0x05F, 0x060, 0x0FC, 0x100, 0x2FF, 0x300, 0xFFF] : List Offset).all (fun off =>
      (testState 9 1 5 [.memRead off]).resetDone ∧ (testState 9 1 5 [.memRead off]).events = [.memRead off] ∧
      (busyState 9 1 5 [.memRead off]).resetDone ∧ (busyState 9 1 5 [.memRead off]).events = [.memRead off]) = true := by decide

/-- The first and the last word of the file, the last byte and the last bit. -/
theorem witness_FieldRegisterWords :
    (testState 9 1 5 [.memWrite (BitVec.ofNat 12 (0x100 + 0x20 * 15 + 4 * 7 + 3)) 7]).resetDone = true ∧
    (testState 9 1 5 [.memWrite (BitVec.ofNat 12 (0x100 + 0x20 * 15 + 4 * 7 + 3)) 7]).busy = false ∧
    (testState 9 1 5 [.memWrite (BitVec.ofNat 12 (0x100 + 0x20 * 15 + 4 * 7 + 3)) 7]).events = [.memWrite 0x2FF 7] ∧
    (testState 9 1 5 [.memWrite (BitVec.ofNat 12 (0x100 + 0x20 * 0 + 4 * 0 + 0)) 7]).events = [.memWrite 0x100 7] ∧
    3 < 4 ∧ 31 < 32 ∧ 255 < 256 ∧ (0 : RegNum) ≠ 15 := by decide

theorem witness_ScalarWords :
    (testState 9 1 5 [.memWrite (BitVec.ofNat 12 (0x040 + 4 * 7 + 3)) 7]).resetDone = true ∧
    (testState 9 1 5 [.memWrite (BitVec.ofNat 12 (0x040 + 4 * 7 + 3)) 7]).busy = false ∧
    (testState 9 1 5 [.memWrite (BitVec.ofNat 12 (0x040 + 4 * 7 + 3)) 7]).events = [.memWrite 0x05F 7] ∧
    (testState 9 1 5 [.memWrite (BitVec.ofNat 12 (0x040 + 4 * 0 + 0)) 7]).events = [.memWrite 0x040 7] ∧
    3 < 4 ∧ 255 < 256 := by decide

theorem witness_ReservedOffsetsReadZeroIgnoreWrites :
    ([0x008, 0x03F, 0x060, 0x0FF, 0x300, 0xFFF] : List Offset).all (fun off =>
      let o := off.toNat / 4 * 4
      (busyState 9 1 5 [.memWrite off 7]).resetDone ∧ (busyState 9 1 5 [.memWrite off 7]).events = [.memWrite off 7] ∧
      ((0x008 ≤ o ∧ o ≤ 0x03C) ∨ (0x060 ≤ o ∧ o ≤ 0x0FC) ∨ 0x300 ≤ o)) = true := by decide

theorem witness_EightWritesLoadARegister : (testState 9 1 5 (writeFREvents 15 maxReg ++ [.reset])).resetDone = true ∧
    (testState 9 1 5 (writeFREvents 15 maxReg ++ [.reset])).busy = false ∧
    (testState 9 1 5 (writeFREvents 15 maxReg ++ [.reset])).events = writeFREvents 15 maxReg ++ [.reset] := ⟨rfl, rfl, rfl⟩

/-- The first and the last byte of the window, full and narrow, reads and writes, and the first address beyond it. -/
theorem witness_BusAccessesResolveToTheWindow :
    (∀ acc, (testState 9 1 5 [.bus acc]).resetDone = true ∧ (testState 9 1 5 [.bus acc]).events = [.bus acc]) ∧
    (∃ acc : BusAccess, acc.addr = Config.windowBase + (0x000 : Offset).toNat ∧ acc.lanes = 0xF ∧ acc.wdata = none) ∧
    (∃ acc : BusAccess, acc.addr = Config.windowBase + (0xFFF : Offset).toNat ∧ acc.lanes = 0xF ∧ acc.wdata = some 7) ∧
    (∃ acc : BusAccess, acc.addr = Config.windowBase + (0xFFF : Offset).toNat ∧ acc.lanes ≠ 0xF) ∧
    ∃ acc : BusAccess, acc.addr < Config.windowBase ∨ Config.windowBase + 4096 ≤ acc.addr :=
  ⟨fun _ => ⟨rfl, rfl⟩, ⟨⟨_, 0xF, none⟩, rfl, rfl, rfl⟩, ⟨⟨_, 0xF, some 7⟩, rfl, rfl, rfl⟩,
    ⟨⟨_, 0x1, none⟩, rfl, by decide⟩, ⟨⟨Config.windowBase + 4096, 0xF, none⟩, .inr (Nat.le_refl _)⟩⟩

/-- `Ready`, the hypothesis of every statement about a command: idle, and in flight. -/
theorem witness_Ready (i : Instr) : (testState 9 1 5 []).Ready i ∧ ((testState 9 1 5 []).issue i).Ready i :=
  ⟨ready_of_idle rfl i, ready_issue _ i⟩

theorem witness_FaddAddsModP : (testState 9 maxReg 5 []).Ready (.fadd 1 1 2) ∧ ((testState 9 maxReg 5 []).issue (.fadd 1 1 2)).Ready (.fadd 1 1 2) :=
  ⟨ready_of_idle rfl _, ready_issue _ _⟩
theorem witness_FsubSubtractsModP : (testState 3 5 5 []).Ready (.fsub 1 1 2) ∧ ((testState 3 5 5 []).issue (.fsub 1 1 2)).Ready (.fsub 1 1 2) :=
  ⟨ready_of_idle rfl _, ready_issue _ _⟩
theorem witness_FmulMultipliesModP : (testState 9 maxReg 5 []).Ready (.fmul 15 1 2) ∧ ((testState 9 maxReg 5 []).issue (.fmul 15 1 2)).Ready (.fmul 15 1 2) :=
  ⟨ready_of_idle rfl _, ready_issue _ _⟩
theorem witness_FsqrSquaresModP : (testState maxReg 1 5 []).Ready (.fsqr 1 1) ∧ ((testState maxReg 1 5 []).issue (.fsqr 1 1)).Ready (.fsqr 1 1) :=
  ⟨ready_of_idle rfl _, ready_issue _ _⟩

/-- A nonzero residue, and an unreduced zero. -/
theorem witness_FinvInvertsModP : (testState 9 1 5 []).Ready (.finv 0 1) ∧ ((testState pReg 1 5 []).issue (.finv 0 1)).Ready (.finv 0 1) ∧
    ((testState 9 1 5 []).readFR 1).toNat % (2 ^ 255 - 19) ≠ 0 ∧ ((testState pReg 1 5 []).readFR 1).toNat % (2 ^ 255 - 19) = 0 ∧
    1 ≤ 1 ∧ 1 < 2 ^ 255 - 19 ∧ ((testState 1 1 5 []).readFR 1).toNat * 1 % (2 ^ 255 - 19) = 1 :=
  ⟨ready_of_idle rfl _, ready_issue _ _, by decide, by decide, by decide, by decide, by decide⟩

theorem witness_FinvOfZeroIsZero : (testState (pReg + pReg) 1 5 []).Ready (.finv 0 1) ∧
    ((testState (pReg + pReg) 1 5 []).readFR 1).toNat = 2 * (2 ^ 255 - 19) ∧
    ((testState pReg 1 5 []).readFR 1).toNat % (2 ^ 255 - 19) = 0 ∧ ((testState 0 1 5 []).readFR 1).toNat % (2 ^ 255 - 19) = 0 :=
  ⟨ready_of_idle rfl _, by decide, by decide, by decide⟩

/-- Bit 255 set, bit 0 clear, and one register named twice. -/
theorem witness_FcswapSwapsByAScalarBit : (testState 9 1 (BitVec.twoPow 256 255) []).Ready (.fcswap 1 2 255) ∧
    ((testState 9 1 (BitVec.twoPow 256 255) []).issue (.fcswap 1 1 0)).Ready (.fcswap 1 1 0) ∧
    (testState 9 1 (BitVec.twoPow 256 255) []).scalar.getLsbD (255 : BitVec 8).toNat = true ∧
    (testState 9 1 (BitVec.twoPow 256 255) []).scalar.getLsbD (0 : BitVec 8).toNat = false :=
  ⟨ready_of_idle rfl _, ready_issue _ _, by decide, by decide⟩

theorem witness_LadderFollowsThePseudocode : (testState maxReg 1 sourceScalar []).Ready (.ladder 1 1) ∧
    ((testState maxReg 1 sourceScalar []).issue (.ladder 1 1)).Ready (.ladder 1 1) :=
  ⟨ready_of_idle rfl _, ready_issue _ _⟩

theorem witness_LadderIgnoresBit255AndReducesTheBase :
    (∀ i, i < 255 → (0 : Reg256).getLsbD i = (BitVec.twoPow 256 255).getLsbD i) ∧ (0 : Reg256) ≠ BitVec.twoPow 256 255 ∧
    9 % (2 ^ 255 - 19) = (9 + (2 ^ 255 - 19)) % (2 ^ 255 - 19) := by
  refine ⟨fun i hi => ?_, by decide, by decide⟩
  rw [BitVec.getLsbD_twoPow]
  simp
  omega

theorem witness_LadderIterationsIndependentOfData : 255 ≤ 255 := Nat.le_refl _

theorem witness_LadderZeroResults : (∀ i, i < 255 → (BitVec.twoPow 256 255).getLsbD i = false) ∧ (2 ^ 255 - 19) % (2 ^ 255 - 19) = 0 := by
  refine ⟨fun i hi => ?_, by decide⟩
  rw [BitVec.getLsbD_twoPow]
  simp
  omega

theorem witness_ResultsDependOnOperandsModP : 3 % (2 ^ 255 - 19) = (3 + (2 ^ 255 - 19)) % (2 ^ 255 - 19) ∧
    0 % (2 ^ 255 - 19) = (2 * (2 ^ 255 - 19)) % (2 ^ 255 - 19) := by decide

theorem witness_WrittenResultsAreReduced : (testState maxReg maxReg 5 []).Ready (.fadd 0 1 2) ∧
    ((testState maxReg maxReg 5 []).issue (.ladder 0 1)).Ready (.ladder 0 1) ∧
    (∀ a b k, Instr.fadd 0 1 2 ≠ .fcswap a b k) ∧ ∀ a b k, Instr.ladder 0 1 ≠ .fcswap a b k :=
  ⟨ready_of_idle rfl _, ready_issue _ _, fun _ _ _ h => (by cases h), fun _ _ _ h => (by cases h)⟩

/-- STATUS, a word of another register at each side of a destination, and a word outside the registers. -/
theorem witness_CompletionFrameThroughTheWindow : ((testState 9 1 5 []).issue (.fcswap 0 15 2)).Ready (.fcswap 0 15 2) ∧
    (0x007 : Offset).toNat / 4 * 4 = 0x004 ∧
    ([0x0FF, 0x120, 0x2DF, 0x300] : List Offset).all (fun off =>
      let o := off.toNat / 4 * 4
      o ≠ 0x004 ∧ ∀ r ∈ destinations (.fcswap 0 15 2), ¬ (0x100 + 0x20 * r.toNat ≤ o ∧ o < 0x120 + 0x20 * r.toNat)) = true :=
  ⟨ready_issue _ _, by decide, by decide⟩

theorem witness_ResultDependsOnSnapshotAlone : ∃ snap : Snapshot,
    (busyState 9 1 5 []).inflight = some { instr := .fmul 0 1 2, snap := snap } ∧
    ({ busyState 9 1 5 [] with scalar := 6, fr := Vector.replicate 16 7 } : State).inflight = some { instr := .fmul 0 1 2, snap := snap } :=
  ⟨_, rfl, rfl⟩

theorem witness_ExecTurnsAwayASecondCommand : ∃ f : InFlight, (busyState 9 1 5 []).inflight = some f ∧ f.instr ≠ .fmul 0 1 3 :=
  ⟨_, rfl, by decide⟩

theorem witness_StepRunsTheDecodedCommand :
    (∃ f : InFlight, (busyState 9 1 5 [.coreComplete]).resetDone = true ∧ (busyState 9 1 5 [.coreComplete]).inflight = some f ∧
      (busyState 9 1 5 [.coreComplete]).events = [.coreComplete] ∧ (busyState 9 1 5 []).inflight = some f ∧
      (busyState 9 1 5 []).events = []) ∧
    ((testState 9 1 5 [.memWrite 0x000 0x00006820]).busy = false ∧ decode 0x00006820 = .ok (.ladder 8 6)) ∧
    decode (BitVec.ofNat 32 (2 ^ 32 + 0x00006820)) = .ok (.ladder 8 6) :=
  ⟨⟨_, rfl, rfl, rfl, rfl, rfl⟩, ⟨rfl, rfl⟩, rfl⟩

theorem witness_StepKeepsTheInvariant : (testState 9 1 5 [.memWrite 0x000 0x00021003]).Inv ∧
    ∃ t, step (testState 9 1 5 [.memWrite 0x000 0x00021003]) = .next t ∧ t.busy = true :=
  ⟨⟨.inl ⟨rfl, rfl⟩, fun _ h => by simp [testState, State.reset] at h,
      ⟨fun _ => rfl, fun _ h => by simp [testState, State.reset] at h⟩⟩, ⟨_, rfl, by decide⟩⟩

theorem witness_ResetZeroesTheBlock : (busyState 9 1 5 [.reset]).events = [.reset] ∧
    ({ busyState 9 1 5 [.reset] with resetDone := false } : State).events = [.reset] := ⟨rfl, rfl⟩

theorem witness_NothingRunsBeforeReset : ∃ s : State, s.resetDone = false ∧ ∀ rest, s.events ≠ .reset :: rest :=
  ⟨{ testState 9 1 5 [.memRead 0x004] with resetDone := false }, rfl, fun _ h => by cases h⟩

theorem witness_WorkingStateIsNeverObserved : (∃ t, step ((testState 9 1 5 [.coreWork]).issue (.ladder 0 1)) = .next t) ∧
    ∃ r, step { testState 9 1 5 [.memRead 0x004] with resetDone := false } = .refused r := ⟨⟨_, rfl⟩, ⟨_, rfl⟩⟩

theorem witness_OnlyTheHostChangesScalar :
    (∃ t, step (testState 9 1 5 [.memWrite 0x05F 7]) = .next t ∧ t.scalar ≠ (testState 9 1 5 [.memWrite 0x05F 7]).scalar) ∧
    ∃ t, step (busyState 9 1 5 [.reset]) = .next t ∧ t.scalar ≠ (busyState 9 1 5 [.reset]).scalar :=
  ⟨⟨_, rfl, by decide⟩, ⟨_, rfl, by decide⟩⟩

theorem witness_WhatChangesAFieldRegister :
    (∃ t, step (busyState 9 1 5 []) = .next t ∧ t.readFR 0 ≠ (busyState 9 1 5 []).readFR 0) ∧
    (∃ t, step (testState 9 1 5 [.memWrite 0x2FF 7]) = .next t ∧ t.readFR 15 ≠ (testState 9 1 5 [.memWrite 0x2FF 7]).readFR 15) ∧
    ∃ t, step (busyState 9 1 5 [.reset]) = .next t ∧ t.readFR 1 ≠ (busyState 9 1 5 [.reset]).readFR 1 :=
  ⟨⟨_, rfl, by decide⟩, ⟨_, rfl, by decide⟩, ⟨_, rfl, by decide⟩⟩

theorem leavesInFlight_plain {e : Event} (hs : e.InScope) (hc : e ≠ .coreComplete) (hr : e ≠ .reset) : e.LeavesInFlight := ⟨hs, hc, hr⟩

theorem witness_OldValuesUntilCompletion : ∃ es rest : List Event, ∃ s : State, s.resetDone = true ∧ s.busy = true ∧
    s.events = es ++ rest ∧ es.length = 3 ∧ ∀ e ∈ es, e.LeavesInFlight :=
  ⟨[.memWrite 0x120 5, .coreWork, .memRead 0x100], [.coreComplete], busyState 9 1 5 [.memWrite 0x120 5, .coreWork, .memRead 0x100, .coreComplete],
    rfl, rfl, rfl, rfl, by simp [Event.LeavesInFlight, Event.InScope]⟩

theorem witness_CommandsEventuallyComplete : (busyState 9 1 5 [.memRead 0x004, .memWrite 0x040 6]).resetDone = true ∧
    ∀ e ∈ (busyState 9 1 5 [.memRead 0x004, .memWrite 0x040 6]).events, e.InScope :=
  ⟨rfl, by simp [busyState, State.issue, testState, Event.InScope]⟩

theorem witness_InterleavingNeverChangesAResult : ∃ es rest : List Event, ∃ s : State, s.resetDone = true ∧ s.inflight = none ∧
    s.events = .memWrite 0x000 (encode (.ladder 8 1)) :: (es ++ .coreComplete :: rest) ∧ es.length = 2 ∧ ∀ e ∈ es, e.LeavesInFlight :=
  ⟨[.memWrite 0x120 5, .coreWork], [.memRead 0x200],
    testState 9 1 5 [.memWrite 0x000 (encode (.ladder 8 1)), .memWrite 0x120 5, .coreWork, .coreComplete, .memRead 0x200],
    rfl, rfl, rfl, rfl, by simp [Event.LeavesInFlight, Event.InScope]⟩

/-- The start of L3.4. -/
def ladderStart : State :=
  let s := testState 9 0 sourceScalar []
  { s with fr := ((((s.fr.set 0 1).set 3 1).set 6 9).set 7 121665) }

theorem witness_LstepIsOneLadderIteration : ladderStart.inflight = none ∧ (ladderStart.readFR 7).toNat = 121665 := by decide

theorem witness_HostDrivenLadderGivesLaddersResult : ladderStart.inflight = none ∧ (ladderStart.readFR 0).toNat = 1 ∧
    (ladderStart.readFR 1).toNat = (9 : Reg256).toNat % (2 ^ 255 - 19) ∧ (ladderStart.readFR 2).toNat = 0 ∧
    (ladderStart.readFR 3).toNat = 1 ∧ ladderStart.readFR 6 = 9 ∧ (ladderStart.readFR 7).toNat = 121665 := by decide

/-- A zero register that is unreduced, a temporary other than the dividend, a nonzero and a zero divisor. -/
theorem witness_PseudoInstructionsComputeWhatTheyName : (testState 9 pReg 5 []).inflight = none ∧
    ((testState 9 pReg 5 []).readFR 2).toNat % (2 ^ 255 - 19) = 0 ∧ (2 : RegNum) ≠ 1 ∧
    ((testState 9 pReg 5 []).readFR 1).toNat % (2 ^ 255 - 19) ≠ 0 := by decide

/-- Two commands with different numbers of polls, and a WAIT on an idle block. -/
theorem witness_PseudoEventsRunTheExpansion :
    let es := pseudoEvents false (fun j => 2 * j) (.fdiv 0 1 2 3)
    (testState 9 1 5 (es ++ [.reset])).resetDone = true ∧ (testState 9 1 5 (es ++ [.reset])).busy = false ∧
    (testState 9 1 5 (es ++ [.reset])).events = es ++ [.reset] ∧ es.length = 3 + 5 ∧
    pseudoEvents false (fun _ => 2) .wait = [poll] := ⟨rfl, rfl, rfl, rfl, rfl⟩

theorem witness_WaitEndsWithAnIdleBlock : (busyState 9 1 5 (waitEvents true 2 ++ [.reset])).resetDone = true ∧
    (busyState 9 1 5 (waitEvents true 2 ++ [.reset])).busy = true ∧
    (busyState 9 1 5 (waitEvents true 2 ++ [.reset])).events = waitEvents true 2 ++ [.reset] := ⟨rfl, rfl, rfl⟩

theorem witness_HostRunComputesX25519 : ∃ sk pk : List Byte, ∃ s : State, sk.length = 32 ∧ pk.length = 32 ∧ s.resetDone = true ∧ s.busy = false ∧
    s.events = x25519Events 1 15 6 (BitVec.ofNat 256 (leInt (clamp sk))) (BitVec.ofNat 256 (decodeBytes pk)) ++ [.reset] :=
  ⟨List.replicate 32 0xff, List.replicate 32 0xff,
    testState 3 4 5 (x25519Events 1 15 6 (BitVec.ofNat 256 (leInt (clamp (List.replicate 32 0xff))))
      (BitVec.ofNat 256 (decodeBytes (List.replicate 32 0xff))) ++ [.reset]), by decide, by decide, rfl, rfl, rfl⟩

theorem witness_ClampSetsTheBitsAndIsIdempotent : (List.replicate 32 (0xff : Byte)).length = 32 ∧ (1 ≠ 0 ∧ 1 ≠ 31) ∧ (30 ≠ 0 ∧ 30 ≠ 31) := by
  decide

theorem witness_LittleEndianRoundTrip : 2 ^ 256 - 1 < 256 ^ 32 ∧ 0 < 256 ^ 0 := by decide

end Sys2Proof.Tests
end

/-! Proofs of the family 00_scope: the host-side byte strings of R12 and R13, and what a step runs (R17, R24, R57). -/

section
namespace Sys2Proof.Machine

/-! ### Little-endian byte strings (R12) -/

@[simp] theorem length_leBytes (n x : Nat) : (leBytes n x).length = n := by
  induction n generalizing x with
  | zero => rfl
  | succ n ih => simp [leBytes, ih]

/-- `n` bytes hold a number up to its low `n` bytes. -/
theorem leInt_leBytes (n x : Nat) : leInt (leBytes n x) = x % 256 ^ n := by
  induction n generalizing x with
  | zero => simp [leBytes, leInt, Nat.mod_one]
  | succ n ih =>
    calc leInt (leBytes (n + 1) x) = x % 256 + 256 * (x / 256 % 256 ^ n) := by simp [leBytes, leInt, ih]
      _ = x % 256 ^ (n + 1) := by rw [pow_succ', Nat.mod_mul]

theorem leBytes_leInt (b : List Byte) : leBytes b.length (leInt b) = b := by
  induction b with
  | nil => rfl
  | cons b rest ih =>
    have hb : b.toNat < 256 := b.isLt
    have hlow : BitVec.ofNat 8 (b.toNat + 256 * leInt rest) = b :=
      BitVec.eq_of_toNat_eq (by simp [Nat.mod_eq_of_lt hb])
    have hhigh : (b.toNat + 256 * leInt rest) / 256 = leInt rest := by omega
    simp only [List.length_cons, leBytes, leInt, hlow, hhigh, ih]

/-- Settles O56: the bytes of `x` hold `x % 256 ^ n`, and a byte string is rebuilt byte by byte. -/
theorem littleEndianRoundTrip : Obligations.LittleEndianRoundTrip := by
  unfold Obligations.LittleEndianRoundTrip
  exact ⟨fun n x hx => ⟨length_leBytes n x, (leInt_leBytes n x).trans (Nat.mod_eq_of_lt hx)⟩, leBytes_leInt⟩

/-! ### Clamping (R13) -/

/-- What clamping does to byte `m`. -/
def clampByte (m : Nat) (b : Byte) : Byte :=
  if m = 0 then b &&& 0xF8 else if m = 31 then (b &&& 0x7F) ||| 0x40 else b

theorem clampByte_zero : clampByte 0 = fun b => b &&& 0xF8 := rfl

theorem clampByte_last : clampByte 31 = fun b => (b &&& 0x7F) ||| 0x40 := rfl

theorem clampByte_other {m : Nat} (h0 : m ≠ 0) (h31 : m ≠ 31) : clampByte m = id := by
  funext b
  simp [clampByte, h0, h31]

theorem clampByte_idem (m : Nat) (b : Byte) : clampByte m (clampByte m b) = clampByte m b := by
  unfold clampByte
  split_ifs
  · rw [BitVec.and_assoc, BitVec.and_self]
  · exact (by decide : ∀ c : Byte, (((c &&& 0x7F) ||| 0x40) &&& 0x7F) ||| 0x40 = (c &&& 0x7F) ||| 0x40) b
  · rfl

@[simp] theorem length_clamp (k : List Byte) : (clamp k).length = k.length := by
  simp [clamp]

/-- Clamping works byte by byte, on a string of any length. -/
theorem getElem?_clamp (k : List Byte) (m : Nat) : (clamp k)[m]? = k[m]?.map (clampByte m) := by
  unfold clamp
  rw [List.getElem?_modify, List.getElem?_modify]
  by_cases h0 : m = 0
  · subst h0
    simp [clampByte_zero]
  · by_cases h31 : m = 31
    · subst h31
      simp [clampByte_last]
    · simp [clampByte_other h0 h31, Ne.symm h0, Ne.symm h31]

theorem clamp_clamp (k : List Byte) : clamp (clamp k) = clamp k := by
  apply List.ext_getElem?
  intro m
  simp [getElem?_clamp, Function.comp_def, clampByte_idem]

/-- Settles O55: each clause is `clampByte` at its position. -/
theorem clampSetsTheBitsAndIsIdempotent : Obligations.ClampSetsTheBitsAndIsIdempotent := by
  unfold Obligations.ClampSetsTheBitsAndIsIdempotent
  intro k hk
  refine ⟨clamp_clamp k, by simp [hk], fun m h0 h31 => ?_, ?_, ?_⟩
  · rw [getElem?_clamp, clampByte_other h0 h31, Option.map_id, id]
  · rw [getElem?_clamp, clampByte_zero]
  · rw [getElem?_clamp, clampByte_last]

/-! ### What a step runs (R17, R24, R57) -/

theorem coreComplete_eq_exec {s : State} {f : InFlight} (h : s.inflight = some f) : coreComplete s = exec f.instr s := by
  simp [coreComplete, h]

/-- The core's turn runs the command in flight. -/
theorem step_coreComplete {s : State} {f : InFlight} {rest : List Event} (hr : s.resetDone = true)
    (hf : s.inflight = some f) (he : s.events = .coreComplete :: rest) :
    step s = exec f.instr { s with events := rest } := by
  rw [step_event hr he]
  exact coreComplete_eq_exec hf

/-- A write of a command's word to CMD of an idle block issues the command (R57). -/
theorem writeCmd_issue {s : State} {w : Word} {i : Instr} (hn : s.inflight = none) (hd : decode w = .ok i) :
    s.writeCmd w = s.issue i := by
  have hb : s.busy = false := by simp [hn]
  simp [State.writeCmd, hb, hd]

theorem withFetchWord_command (s : State) (n : Nat) {w : Nat} {i : Instr} (hd : decode (BitVec.ofNat 32 w) = .ok i) :
    s.withFetchWord n w = { (s.retire.issue i) with resetDone := true, events := .coreComplete :: s.events } := by
  simp [State.withFetchWord, placeCommand, hd]

/-- Settles O38: the three ways a step meets a command, each through the lemma about its event. -/
theorem stepRunsTheDecodedCommand : Obligations.StepRunsTheDecodedCommand := by
  unfold Obligations.StepRunsTheDecodedCommand
  refine ⟨fun s f rest hr hf => ⟨step_coreComplete hr hf, fun he => ?_⟩, fun s w i rest hr hb he hd => ?_,
    fun s n w i hd => ?_⟩
  · rw [step_silent hr he, coreComplete_eq_exec hf]
  · have hn : s.inflight = none := s.busy_eq_false.mp hb
    rw [step_event hr he]
    exact congrArg Host.Outcome.next (writeCmd_issue (s := { s with events := rest }) hn hd)
  · rw [withFetchWord_command s n hd]
    exact step_coreComplete (s := { (s.retire.issue i) with resetDone := true, events := .coreComplete :: s.events })
      rfl rfl rfl

end Sys2Proof.Machine
end

/-! Proofs of the family 10_state: the invariant, what changes a register and when, and the hidden working state (R18 to R33). -/

section
namespace Sys2Proof.Machine

open Sys2Proof.Config

/-! ### The invariant (R21, R23, R27, R28, R31) -/

/-- On an idle block without working state only the error record is left to check. -/
theorem State.inv_of_idle {s : State} (herr : s.ErrorOk) (hidle : s.inflight = none) (hwork : s.work = .absent) :
    s.Inv where
  error := herr
  snapshot f hf := by simp [hidle] at hf
  work := ⟨fun _ => hwork, fun f hf => by simp [hidle] at hf⟩

/-- Recording an error keeps ERR and ECODE in agreement (R91, R93). -/
theorem State.errorOk_raise {s : State} (h : s.ErrorOk) (e : ErrorCode) : (s.raise e).ErrorOk := by
  rcases h with ⟨herr, -⟩ | ⟨herr, hcode⟩
  · exact .inr ⟨s.raise_err e, by cases e <;> simp [herr, errorNumber]⟩
  · exact .inr ⟨s.raise_err e, by simpa [herr] using hcode⟩

/-- The snapshot stays fresh when the registers, SCALAR and INFLIGHT stay. -/
theorem State.SnapshotOk.congr {s t : State} (h : s.SnapshotOk) (hfr : t.fr = s.fr) (hsc : t.scalar = s.scalar)
    (hin : t.inflight = s.inflight) : t.SnapshotOk := fun f hf =>
  (h f (hin ▸ hf)).trans (State.capture_congr hfr hsc f.instr).symm

theorem State.WorkOk.congr {s t : State} (h : s.WorkOk) (hin : t.inflight = s.inflight) (hwork : t.work = s.work) :
    t.WorkOk := by
  unfold State.WorkOk
  rw [hin, hwork]
  exact h

theorem workRun_succ_last (v : Snapshot) (n : Nat) (w : Work) : workRun v (n + 1) w = workIter v (workRun v n w) := by
  induction n generalizing w with
  | zero => rfl
  | succ n ih => exact ih (workIter v w)

theorem State.workOk_coreWork {s : State} (h : s.WorkOk) : s.coreWork.WorkOk := by
  obtain ⟨hidle, hbusy⟩ := h
  cases hf : s.inflight with
  | none => exact ⟨fun _ => by simpa [hf] using hidle hf, fun f hf' => by simp [hf] at hf'⟩
  | some f =>
    obtain ⟨n, hn⟩ := hbusy f hf
    refine ⟨fun hnone => by simp [hf] at hnone, fun g hg => ⟨n + 1, ?_⟩⟩
    obtain rfl : f = g := by simpa [hf] using hg
    simp [hf, hn, workRun_succ_last]

/-- A write keeps the invariant: it reaches a register on an idle block only (R43). -/
theorem WriteEffect.inv {s t : State} {off : Offset} {v : Word} (h : WriteEffect s off v t) (hs : s.Inv) : t.Inv := by
  obtain ⟨herr, hsnap, hwork⟩ := hs
  cases h with
  | nothing => exact ⟨herr, hsnap, hwork⟩
  | clear _ _ => exact ⟨.inl ⟨rfl, rfl⟩, hsnap, hwork⟩
  | error e _ _ =>
    exact ⟨State.errorOk_raise herr e, hsnap.congr (by simp) (by simp) (by simp), hwork.congr (by simp) (by simp)⟩
  | issue i _ _ _ =>
    refine ⟨herr, (ready_issue s i).1, fun hnone => by simp at hnone, fun f hf => ⟨0, ?_⟩⟩
    obtain rfl : _ = f := by simpa using hf
    rfl
  | scalar j _ hidle => exact State.inv_of_idle herr hidle (hwork.1 hidle)
  | fr i j _ hidle => exact State.inv_of_idle herr hidle (hwork.1 hidle)

/-- A completion keeps the invariant: it leaves the error record and ends what was in flight (R24). -/
theorem State.inv_completion {s : State} (h : s.ErrorOk) (i : Instr) (v : Snapshot) : (commitOf i v s).retire.Inv := by
  have hc := completesWriting_commitOf i v s
  refine State.inv_of_idle ?_ rfl rfl
  unfold State.ErrorOk
  rw [hc.err, hc.ecode]
  exact h

theorem State.inv_resetBlock (s : State) : s.resetBlock.Inv := State.inv_of_idle (.inl ⟨rfl, rfl⟩) rfl rfl

theorem EventEffect.inv {s t : State} {e : Event} (h : EventEffect s e t) (hs : s.Inv) : t.Inv := by
  cases h with
  | read off => exact ⟨hs.error, hs.snapshot, hs.work⟩
  | write off v _ _ hw => exact hw.inv hs
  | reset _ => exact s.inv_resetBlock
  | work =>
    exact ⟨by simpa [State.ErrorOk] using hs.error, hs.snapshot.congr (by simp) (by simp) (by simp),
      State.workOk_coreWork hs.work⟩
  | complete f _ _ => exact State.inv_completion hs.error f.instr f.snap
  | idle => exact hs

/-- Settles O40: a step is one event or the completion a silent host waits for, and each keeps the invariant. -/
theorem stepKeepsTheInvariant : Obligations.StepKeepsTheInvariant := by
  unfold Obligations.StepKeepsTheInvariant
  intro s t hs h
  rcases step_cases h with ⟨rest, -, -, rfl⟩ | ⟨f, -, -, rfl⟩ | ⟨-, -, rfl⟩ | ⟨e, rest, -, -, heff⟩
  · exact State.inv_resetBlock _
  · exact State.inv_completion hs.error f.instr f.snap
  · exact hs
  · exact heff.inv ⟨hs.error, hs.snapshot, hs.work⟩

/-- Settles O39: the reset state is idle, without working state and without an error. -/
theorem resetMeetsTheInvariant : Obligations.ResetMeetsTheInvariant := by
  unfold Obligations.ResetMeetsTheInvariant
  exact State.inv_of_idle (.inl ⟨rfl, rfl⟩) rfl rfl

/-! ### Reset and before it (R31, R32) -/

/-- Settles O42: each part of the state is read off the reset literal. -/
theorem resetStateIsAllZero : Obligations.ResetStateIsAllZero := by
  unfold Obligations.ResetStateIsAllZero
  exact ⟨State.readFR_reset, rfl, by decide, rfl, rfl, rfl, rfl⟩

theorem runBeforeReset_refused {s : State} (h : ∀ rest, s.events ≠ .reset :: rest) :
    runBeforeReset s = .refused .noReset := by
  unfold runBeforeReset
  split
  · next rest he => exact absurd he (h rest)
  · rfl

/-- Settles O43: before the first reset a step is `runBeforeReset`, which knows one event. -/
theorem nothingRunsBeforeReset : Obligations.NothingRunsBeforeReset := by
  unfold Obligations.NothingRunsBeforeReset
  intro s hr h
  have hstep : step s = runBeforeReset s := by simp [step, hr]
  rw [hstep, runBeforeReset_refused h]

/-! ### Values a command writes are below p (R19, R65) -/

theorem powRun_res_lt (y n : Nat) {w : PowWork} (h : w.res < p) : (powRun y n w).res < p := by
  induction n generalizing w with
  | zero => exact h
  | succ n ih =>
    refine ih ?_
    show (if y.testBit w.bit then fieldMul w.res w.base else w.res) < p
    split
    · exact fieldMul_lt _ _
    · exact h

theorem fieldInv_lt (x : Nat) : fieldInv x < p :=
  powRun_res_lt (p - 2) (bitLength (p - 2)) (w := powInit x) (Laws.prime_p.one_lt : 1 < p)

theorem ladderValue_lt (k : Reg256) (u : Nat) : ladderValue k u < p := fieldMul_lt _ _

/-- A field value below p reads back below p. -/
theorem readFR_writeField_lt (s : State) (r : RegNum) {v : Nat} (h : v < p) : ((s.writeField r v).readFR r).toNat < p := by
  rw [State.writeField, State.readFR_writeFR_same, toNat_ofNat_of_lt h]
  exact h

theorem readFR_commitOf_rd_lt {i : Instr} (hi : ∀ a b k, i ≠ .fcswap a b k) (v : Snapshot) (s : State) :
    ((commitOf i v s).readFR i.rd).toNat < p := by
  cases i with
  | fadd rd rs1 rs2 => exact readFR_writeField_lt s rd (fieldAdd_lt _ _)
  | fsub rd rs1 rs2 => exact readFR_writeField_lt s rd (fieldSub_lt _ _)
  | fmul rd rs1 rs2 => exact readFR_writeField_lt s rd (fieldMul_lt _ _)
  | fsqr rd rs1 => exact readFR_writeField_lt s rd (fieldSqr_lt _)
  | finv rd rs1 => exact readFR_writeField_lt s rd (fieldInv_lt _)
  | fcswap a b k => exact absurd rfl (hi a b k)
  | ladder rd rs1 => exact readFR_writeField_lt s rd (ladderValue_lt _ _)

/-- Settles O34: each result is reduced by its last operation. -/
theorem writtenResultsAreReduced : Obligations.WrittenResultsAreReduced := by
  unfold Obligations.WrittenResultsAreReduced
  intro i s hs hi
  exact ⟨_, exec_of_ready hs, readFR_commitOf_rd_lt hi _ s⟩

/-- Settles O36: a destination's value is a function of the snapshot. -/
theorem resultDependsOnSnapshotAlone : Obligations.ResultDependsOnSnapshotAlone := by
  unfold Obligations.ResultDependsOnSnapshotAlone
  intro i snap s s' hs hs'
  exact ⟨_, _, exec_of_canRun (.inr hs), exec_of_canRun (.inr hs'),
    fun r hr => readFR_commitOf_destination i snap s s' hr⟩

/-! ### The window seen around a completion (R24, R26) -/

theorem wordOffset_of_target_status {off : Offset} (h : target off = .status) : wordOffset off = 0x004 := by
  rw [target_eq] at h
  split_ifs at h
  assumption

theorem target_of_wordOffset_status {off : Offset} (h : wordOffset off = 0x004) : target off = .status := by
  simp [target_eq, h]

theorem wordOffset_of_target_scalar {off : Offset} {j : WordNum} (h : target off = .scalar j) :
    0x040 ≤ wordOffset off ∧ wordOffset off ≤ 0x05C := by
  rw [target_eq] at h
  split_ifs at h
  assumption

/-- The 32 bytes of the register an offset names hold it (R35, R38). -/
theorem wordOffset_of_target_fr {off : Offset} {i : RegNum} {j : WordNum} (h : target off = .fr i j) :
    0x100 + 0x20 * i.toNat ≤ wordOffset off ∧ wordOffset off < 0x120 + 0x20 * i.toNat := by
  rw [target_eq] at h
  split_ifs at h with _ _ _ hfr
  obtain ⟨rfl, -⟩ := Target.fr.inj h
  rw [BitVec.toNat_ofNat]
  omega

/-- Of two states that differ in BUSY only, the idle one's STATUS word is the other's with bit 0 cleared. -/
theorem statusWord_idle {s t : State} (herr : t.err = s.err) (hcode : t.ecode = s.ecode) (hidle : t.inflight = none) :
    statusWord t = statusWord s &&& 0xFFFFFFFE := by
  have hclear : ∀ (c : BitVec 4) (e b : Bool), 0#24 ++ c ++ 0#2 ++ BitVec.ofBool e ++ BitVec.ofBool false =
      (0#24 ++ c ++ 0#2 ++ BitVec.ofBool e ++ BitVec.ofBool b) &&& 0xFFFFFFFE#32 := by decide
  have hb : t.busy = false := t.busy_eq_false.mpr hidle
  unfold statusWord
  rw [herr, hcode, hb]
  exact hclear s.ecode s.err s.busy

/-- A word of the window that is no destination's and not STATUS reads as before the completion. -/
theorem CompletesWriting.windowRead_eq {ds : List RegNum} {s t : State} (h : CompletesWriting ds s t) {off : Offset}
    (hst : target off ≠ .status) (hfr : ∀ i j, target off = .fr i j → i ∉ ds) : windowRead t off = windowRead s off := by
  unfold windowRead
  cases ht : target off with
  | status => exact absurd ht hst
  | scalar j => simp only [h.scalar]
  | fr i j => simp only [h.others i (hfr i j ht)]
  | cmd => rfl
  | reserved => rfl

theorem CompletesWriting.windowRead_status {ds : List RegNum} {s t : State} (h : CompletesWriting ds s t) {off : Offset}
    (hst : target off = .status) : windowRead t off = windowRead s off &&& 0xFFFFFFFE := by
  simp only [windowRead, hst]
  exact statusWord_idle h.err h.ecode h.idle

/-- Settles O35: the frame of the completion, target by target. -/
theorem completionFrameThroughTheWindow : Obligations.CompletionFrameThroughTheWindow := by
  unfold Obligations.CompletionFrameThroughTheWindow
  intro i s hs
  have hc := completesWriting_commitOf i (s.capture i) s
  refine ⟨_, exec_of_ready hs, (State.busy_eq_false _).mpr rfl, fun off => ⟨fun ho => ?_, fun ho hds => ?_⟩⟩
  · exact hc.windowRead_status (target_of_wordOffset_status ho)
  · exact hc.windowRead_eq (fun hst => ho (wordOffset_of_target_status hst))
      (fun r j hr hmem => hds r hmem (wordOffset_of_target_fr hr))

/-! ### What a step does to the registers and SCALAR (R18, R20, R29) -/

/-- The ways a step from `s` to `t` can treat the field registers and SCALAR. -/
inductive RegisterEffect (s t : State) : Prop
  | unchanged (hfr : t.fr = s.fr) (hsc : t.scalar = s.scalar)
  | completion (f : InFlight) (hf : s.inflight = some f) (ht : t.inflight = none) (hsc : t.scalar = s.scalar)
      (hothers : ∀ r, r ∉ destinations f.instr → t.readFR r = s.readFR r)
  | reset (rest : List Event) (he : s.events = .reset :: rest)
  | scalarWrite (e : Event) (rest : List Event) (off : Offset) (v : Word) (j : WordNum) (he : s.events = e :: rest)
      (hw : e.Writes off v) (htg : target off = .scalar j) (hidle : s.inflight = none) (hfr : t.fr = s.fr)
  | registerWrite (e : Event) (rest : List Event) (off : Offset) (v : Word) (i : RegNum) (j : WordNum)
      (he : s.events = e :: rest) (hw : e.Writes off v) (htg : target off = .fr i j) (hidle : s.inflight = none)
      (hsc : t.scalar = s.scalar) (hothers : ∀ r, r ≠ i → t.readFR r = s.readFR r)

theorem RegisterEffect.of_completion {s u : State} {f : InFlight} (hf : s.inflight = some f) (hfr : u.fr = s.fr)
    (hsc : u.scalar = s.scalar) : RegisterEffect s (commitOf f.instr f.snap u).retire := by
  have hc := completesWriting_commitOf f.instr f.snap u
  exact .completion f hf hc.idle (hc.scalar.trans hsc) fun r hr => (hc.others r hr).trans (State.readFR_congr hfr r)

theorem step_registerEffect {s t : State} (h : step s = .next t) : RegisterEffect s t := by
  rcases step_cases h with ⟨rest, -, he, -⟩ | ⟨f, -, hf, rfl⟩ | ⟨-, -, rfl⟩ | ⟨e, rest, -, he, heff⟩
  · exact .reset rest he
  · exact .of_completion hf rfl rfl
  · exact .unchanged rfl rfl
  · cases heff with
    | read off => exact .unchanged rfl rfl
    | write off v hw _ heffect =>
      cases heffect with
      | nothing => exact .unchanged rfl rfl
      | clear _ _ => exact .unchanged rfl rfl
      | error c _ _ => exact .unchanged (by simp) (by simp)
      | issue i _ _ _ => exact .unchanged rfl rfl
      | scalar j htg hidle => exact .scalarWrite e rest off v j he hw htg hidle rfl
      | fr i j htg hidle =>
        exact .registerWrite e rest off v i j he hw htg hidle rfl fun r hr => State.readFR_writeFR_other _ hr _
    | reset hreset => exact .reset rest (hreset ▸ he)
    | work => exact .unchanged (by simp) (by simp)
    | complete f _ hf => exact .of_completion hf rfl rfl
    | idle => exact .unchanged rfl rfl

/-- Settles O45: of the ways a step treats SCALAR, two can change it. -/
theorem onlyTheHostChangesScalar : Obligations.OnlyTheHostChangesScalar := by
  unfold Obligations.OnlyTheHostChangesScalar
  intro s t h hne
  cases step_registerEffect h with
  | unchanged _ hsc => exact absurd hsc hne
  | completion _ _ _ hsc _ => exact absurd hsc hne
  | reset rest he => exact ⟨_, rest, he, .inl rfl⟩
  | scalarWrite e rest off v j he hw htg hidle _ =>
    exact ⟨e, rest, he, .inr ⟨s.busy_eq_false.mpr hidle, off, v, hw, wordOffset_of_target_scalar htg⟩⟩
  | registerWrite _ _ _ _ _ _ _ _ _ _ hsc _ => exact absurd hsc hne

/-- Settles O46: of the ways a step treats the field registers, three can change one. -/
theorem whatChangesAFieldRegister : Obligations.WhatChangesAFieldRegister := by
  unfold Obligations.WhatChangesAFieldRegister
  intro s t r h hne
  cases step_registerEffect h with
  | unchanged hfr _ => exact absurd (State.readFR_congr hfr r) hne
  | completion f hf ht _ hothers => exact .inl ⟨f, hf, not_not.mp fun hr => hne (hothers r hr), ht⟩
  | reset rest he => exact .inr ⟨_, rest, he, .inl rfl⟩
  | scalarWrite _ _ _ _ _ _ _ _ _ hfr => exact absurd (State.readFR_congr hfr r) hne
  | registerWrite e rest off v i j he hw htg hidle _ hothers =>
    obtain rfl : r = i := not_not.mp fun hr => hne (hothers r hr)
    exact .inr ⟨e, rest, he, .inr ⟨s.busy_eq_false.mpr hidle, off, v, hw, wordOffset_of_target_fr htg⟩⟩

/-! ### The hidden working state (R27, R28) -/

/-- The state with its working state replaced: `s.setWork w` is any state that differs from `s` in it only. -/
def State.setWork (s : State) (w : Work) : State := { s with work := w }

@[simp] theorem State.setWork_inflight (s : State) (w : Work) : (s.setWork w).inflight = s.inflight := rfl
@[simp] theorem State.setWork_resetDone (s : State) (w : Work) : (s.setWork w).resetDone = s.resetDone := rfl
@[simp] theorem State.setWork_events (s : State) (w : Work) : (s.setWork w).events = s.events := rfl
@[simp] theorem State.setWork_busy (s : State) (w : Work) : (s.setWork w).busy = s.busy := rfl

/-- An outcome with the working state of its next state replaced. -/
def withWork (w : Work) (o : Host.Outcome State Fault Refusal) : Host.Outcome State Fault Refusal :=
  match o with
  | .next t => .next (t.setWork w)
  | .fault r => .fault r
  | .refused r => .refused r

theorem raise_setWork (s : State) (e : ErrorCode) (w : Work) : (s.setWork w).raise e = (s.raise e).setWork w := by
  unfold State.raise State.setWork
  split <;> rfl

theorem writeCmd_setWork (s : State) (v : Word) (w : Work) :
    ∃ w', (s.setWork w).writeCmd v = (s.writeCmd v).setWork w' := by
  unfold State.writeCmd
  rw [State.setWork_busy]
  split
  · exact ⟨w, raise_setWork s _ w⟩
  · split
    · exact ⟨w, raise_setWork s _ w⟩
    · exact ⟨_, rfl⟩

theorem writeStatus_setWork (s : State) (v : Word) (w : Work) :
    (s.setWork w).writeStatus v = (s.writeStatus v).setWork w := by
  unfold State.writeStatus
  split <;> rfl

theorem writeScalarWord_setWork (s : State) (j : WordNum) (v : Word) (w : Work) :
    (s.setWork w).writeScalarWord j v = (s.writeScalarWord j v).setWork w := by
  unfold State.writeScalarWord
  rw [State.setWork_busy]
  split
  · exact raise_setWork s _ w
  · rfl

theorem writeFRWord_setWork (s : State) (i : RegNum) (j : WordNum) (v : Word) (w : Work) :
    (s.setWork w).writeFRWord i j v = (s.writeFRWord i j v).setWork w := by
  unfold State.writeFRWord
  rw [State.setWork_busy]
  split
  · exact raise_setWork s _ w
  · rfl

/-- The effect of a write does not depend on the working state, which an issue starts anew (R27). -/
theorem memWrite_setWork (s : State) (off : Offset) (v : Word) (w : Work) :
    ∃ w', (s.setWork w).memWrite off v = (s.memWrite off v).setWork w' := by
  unfold State.memWrite
  cases target off with
  | cmd => exact writeCmd_setWork s v w
  | status => exact ⟨w, writeStatus_setWork s v w⟩
  | scalar j => exact ⟨w, writeScalarWord_setWork s j v w⟩
  | fr i j => exact ⟨w, writeFRWord_setWork s i j v w⟩
  | reserved => exact ⟨w, rfl⟩

theorem busAccess_setWork (s : State) (acc : BusAccess) (w : Work) :
    ∃ w', (s.setWork w).busAccess acc = withWork w' (s.busAccess acc) := by
  unfold State.busAccess
  split
  · exact ⟨w, rfl⟩
  · split
    · exact ⟨w, rfl⟩
    · split
      · exact ⟨w, rfl⟩
      · obtain ⟨w', hw'⟩ := memWrite_setWork s _ _ w
        exact ⟨w', congrArg Host.Outcome.next hw'⟩

theorem coreWork_setWork (s : State) (w : Work) : ∃ w', (s.setWork w).coreWork = s.coreWork.setWork w' := by
  unfold State.coreWork
  rw [State.setWork_inflight]
  split
  · exact ⟨w, rfl⟩
  · exact ⟨_, rfl⟩

theorem commitOf_setWork (i : Instr) (v : Snapshot) (s : State) (w : Work) :
    commitOf i v (s.setWork w) = (commitOf i v s).setWork w := by
  cases i <;> rfl

/-- A completion computes from the snapshot and discards the working state (R24). -/
theorem coreComplete_setWork (s : State) (w : Work) : ∃ w', coreComplete (s.setWork w) = withWork w' (coreComplete s) := by
  cases hf : s.inflight with
  | none =>
    rw [coreComplete_idle hf, coreComplete_idle (s := s.setWork w) hf]
    exact ⟨w, rfl⟩
  | some f =>
    rw [coreComplete_inflight hf, coreComplete_inflight (s := s.setWork w) hf, commitOf_setWork]
    exact ⟨.absent, rfl⟩

theorem runEvent_setWork (e : Event) (s : State) (w : Work) :
    ∃ w', runEvent e (s.setWork w) = withWork w' (runEvent e s) := by
  cases e with
  | memRead off => exact ⟨w, rfl⟩
  | memWrite off v =>
    obtain ⟨w', hw'⟩ := memWrite_setWork s off v w
    exact ⟨w', congrArg Host.Outcome.next hw'⟩
  | bus acc => exact busAccess_setWork s acc w
  | reset => exact ⟨.absent, rfl⟩
  | coreWork =>
    obtain ⟨w', hw'⟩ := coreWork_setWork s w
    exact ⟨w', congrArg Host.Outcome.next hw'⟩
  | coreComplete => exact coreComplete_setWork s w

theorem runBeforeReset_setWork (s : State) (w : Work) :
    ∃ w', runBeforeReset (s.setWork w) = withWork w' (runBeforeReset s) := by
  unfold runBeforeReset
  rw [State.setWork_events]
  split
  · exact ⟨.absent, rfl⟩
  · exact ⟨w, rfl⟩

/-- Whatever the working state a step starts with, it answers alike up to the working state. -/
theorem step_setWork (s : State) (w : Work) : ∃ w', step (s.setWork w) = withWork w' (step s) := by
  cases hr : s.resetDone with
  | false => simpa [step, hr] using runBeforeReset_setWork s w
  | true =>
    cases he : s.events with
    | nil =>
      rw [step_silent hr he, step_silent (s := s.setWork w) hr he]
      exact coreComplete_setWork s w
    | cons e rest =>
      rw [step_event hr he, step_event (s := s.setWork w) hr he]
      exact runEvent_setWork e { s with events := rest } w

/-- Settles O44: `step_setWork`, read for a next state and for a refusal. -/
theorem workingStateIsNeverObserved : Obligations.WorkingStateIsNeverObserved := by
  unfold Obligations.WorkingStateIsNeverObserved
  intro s w
  obtain ⟨w', hw'⟩ := step_setWork s w
  exact ⟨fun t ht => ⟨w', hw'.trans (congrArg (withWork w') ht)⟩, fun r hr => hw'.trans (congrArg (withWork w') hr)⟩

/-! ### Decoding what was encoded, for the write that issues a command (R57, R62) -/

theorem opcodeOf_opcodeByte (op : Opcode) : opcodeOf (opcodeByte op) = some op := by
  cases op <;> rfl

/-- A range of bits is 0 when its low part and its high part are. -/
theorem extractLsb'_eq_zero_of_parts {w : Word} {start m n : Nat} (hlow : w.extractLsb' start m = 0)
    (hhigh : w.extractLsb' (start + m) n = 0) : w.extractLsb' start (m + n) = 0 := by
  refine BitVec.eq_of_getLsbD_eq fun b hb => ?_
  by_cases h : b < m
  · simpa [h, hb] using congrArg (·.getLsbD b) hlow
  · have hbit := congrArg (·.getLsbD (b - m)) hhigh
    simpa [hb, show b - m < n by omega, show start + m + (b - m) = start + b by omega] using hbit

theorem zeroFieldsClear_R {w : Word} (hk : kField w = 0) (htop : w.extractLsb' 28 4 = 0) :
    zeroFieldsClear .R w = true :=
  beq_iff_eq.mpr (extractLsb'_eq_zero_of_parts (m := 8) hk htop)

theorem zeroFieldsClear_U {w : Word} (hrs2 : rs2Field w = 0) (hk : kField w = 0) (htop : w.extractLsb' 28 4 = 0) :
    zeroFieldsClear .U w = true :=
  beq_iff_eq.mpr (extractLsb'_eq_zero_of_parts (m := 4) hrs2 (extractLsb'_eq_zero_of_parts (m := 8) hk htop))

theorem zeroFieldsClear_S {w : Word} (hrd : rdField w = 0) (htop : w.extractLsb' 28 4 = 0) :
    zeroFieldsClear .S w = true :=
  Bool.and_eq_true_iff.mpr ⟨beq_iff_eq.mpr hrd, beq_iff_eq.mpr htop⟩

/-- The fields a format lacks are packed from 0 (R59, R62). -/
theorem zeroFieldsClear_encode (i : Instr) : zeroFieldsClear (formatOf i.opcode) (encode i) = true := by
  obtain ⟨-, hrd, -, hrs2, hk, htop⟩ := Laws.encoding_fields i
  cases i with
  | fadd _ _ _ => exact zeroFieldsClear_R hk htop
  | fsub _ _ _ => exact zeroFieldsClear_R hk htop
  | fmul _ _ _ => exact zeroFieldsClear_R hk htop
  | fsqr _ _ => exact zeroFieldsClear_U hrs2 hk htop
  | finv _ _ => exact zeroFieldsClear_U hrs2 hk htop
  | fcswap _ _ _ => exact zeroFieldsClear_S hrd htop
  | ladder _ _ => exact zeroFieldsClear_U hrs2 hk htop

theorem instrOf_encode (i : Instr) : instrOf i.opcode (encode i) = i := by
  obtain ⟨-, hrd, hrs1, hrs2, hk, -⟩ := Laws.encoding_fields i
  cases i <;> simp only [Instr.opcode, instrOf, hrd, hrs1, hrs2, hk] <;> rfl

theorem decode_encode (i : Instr) : decode (encode i) = .ok i := by
  obtain ⟨hop, -⟩ := Laws.encoding_fields i
  simp only [decode, hop, opcodeOf_opcodeByte, zeroFieldsClear_encode, instrOf_encode, if_true]

/-! ### A run between issue and completion (R43, R45, R114) -/

/-- The frame of what can happen on a busy block short of completion and reset. -/
structure BusyFrame (s t : State) : Prop where
  fr : t.fr = s.fr
  scalar : t.scalar = s.scalar
  inflight : t.inflight = s.inflight
  resetDone : t.resetDone = s.resetDone
  events : t.events = s.events

theorem BusyFrame.refl (s : State) : BusyFrame s s := ⟨rfl, rfl, rfl, rfl, rfl⟩

/-- A write to a busy block reaches the error record at most (R43). -/
theorem WriteEffect.busyFrame {s t : State} {off : Offset} {v : Word} (h : WriteEffect s off v t) {f : InFlight}
    (hf : s.inflight = some f) : BusyFrame s t := by
  have hbusy : s.inflight ≠ none := by simp [hf]
  cases h with
  | nothing => exact .refl s
  | clear _ _ => exact ⟨rfl, rfl, rfl, rfl, rfl⟩
  | error e _ _ => constructor <;> simp
  | issue _ _ hidle _ => exact absurd hidle hbusy
  | scalar _ _ hidle => exact absurd hidle hbusy
  | fr _ _ _ hidle => exact absurd hidle hbusy

theorem EventEffect.busyFrame {s t : State} {e : Event} (h : EventEffect s e t) (he : e.LeavesInFlight) {f : InFlight}
    (hf : s.inflight = some f) : BusyFrame s t := by
  obtain ⟨-, hcomplete, hreset⟩ := he
  cases h with
  | read off => exact ⟨rfl, rfl, rfl, rfl, rfl⟩
  | write off v _ _ hw => exact hw.busyFrame hf
  | reset h => exact absurd h hreset
  | work => constructor <;> simp
  | complete _ h _ => exact absurd h hcomplete
  | idle => exact .refl s

theorem step_busyFrame {s : State} {e : Event} {rest : List Event} {f : InFlight} (hr : s.resetDone = true)
    (hf : s.inflight = some f) (he : s.events = e :: rest) (hleave : e.LeavesInFlight) :
    ∃ t, step s = .next t ∧ BusyFrame { s with events := rest } t := by
  obtain ⟨t, ht⟩ := runEvent_total { s with events := rest } hleave.1
  exact ⟨t, (step_event hr he).trans ht, (runEvent_effect ht).busyFrame hleave hf⟩

theorem runSteps_busyFrame {es rest : List Event} {s : State} {f : InFlight} (hr : s.resetDone = true)
    (hf : s.inflight = some f) (he : s.events = es ++ rest) (hleave : ∀ e ∈ es, e.LeavesInFlight) :
    ∃ t, runSteps es.length s = .next t ∧ BusyFrame { s with events := rest } t := by
  induction es generalizing s with
  | nil => exact ⟨s, rfl, rfl, rfl, rfl, rfl, he⟩
  | cons e es ih =>
    obtain ⟨u, hu, hsu⟩ := step_busyFrame hr hf he (hleave e List.mem_cons_self)
    obtain ⟨t, ht, hut⟩ := ih (hsu.resetDone.trans hr) (hsu.inflight.trans hf) hsu.events
      fun e he => hleave e (List.mem_cons_of_mem _ he)
    exact ⟨t, (runSteps_succ hu).trans ht, hut.fr.trans hsu.fr, hut.scalar.trans hsu.scalar,
      hut.inflight.trans hsu.inflight, hut.resetDone.trans hsu.resetDone, hut.events⟩

/-- The host's write of a command's word to CMD of an idle block issues the command (R57, R62). -/
theorem step_issue {s : State} {i : Instr} {rest : List Event} (hr : s.resetDone = true) (hn : s.inflight = none)
    (he : s.events = .memWrite 0x000 (encode i) :: rest) : step s = .next (State.issue { s with events := rest } i) := by
  rw [step_event hr he]
  exact congrArg Host.Outcome.next (writeCmd_issue (s := { s with events := rest }) hn (decode_encode i))

/-- The registers a completion leaves depend on those before it and on the snapshot alone. -/
theorem commitOf_fr_congr (i : Instr) (v : Snapshot) {s t : State} (h : t.fr = s.fr) :
    (commitOf i v t).fr = (commitOf i v s).fr := by
  refine State.fr_ext fun r => ?_
  by_cases hr : r ∈ destinations i
  · exact readFR_commitOf_destination i v t s hr
  · rw [readFR_commitOf_other i v t hr, readFR_commitOf_other i v s hr, State.readFR_congr h]

/-- Settles O49: the accesses between issue and completion leave the registers and the snapshot as the issue left them. -/
theorem interleavingNeverChangesAResult : Obligations.InterleavingNeverChangesAResult := by
  unfold Obligations.InterleavingNeverChangesAResult
  intro i es rest s hr hn he hleave
  have hissue := step_issue hr hn he
  obtain ⟨m, hrun, hm⟩ := runSteps_busyFrame (es := es) (rest := .coreComplete :: rest)
    (s := State.issue { s with events := es ++ .coreComplete :: rest } i) hr rfl rfl hleave
  have hlast : step m = .next (commitOf i (s.capture i) { m with events := rest }).retire :=
    (step_coreComplete (hm.resetDone.trans hr) hm.inflight hm.events).trans (exec_of_canRun (.inr hm.inflight))
  have hexec := exec_of_ready (ready_of_idle hn i)
  have hcm := completesWriting_commitOf i (s.capture i) { m with events := rest }
  have hcs := completesWriting_commitOf i (s.capture i) s
  refine ⟨(commitOf i (s.capture i) { m with events := rest }).retire, _, ?_, hexec, commitOf_fr_congr i _ hm.fr, ?_,
    (State.busy_eq_false _).mpr hcm.idle, hcm.events⟩
  · calc runSteps (es.length + 2) s
        = runSteps (es.length + 1) (State.issue { s with events := es ++ .coreComplete :: rest } i) := runSteps_succ hissue
      _ = runSteps 1 m := runSteps_add hrun
      _ = .next (commitOf i (s.capture i) { m with events := rest }).retire := runSteps_succ hlast
  · exact (hcm.scalar.trans hm.scalar).trans hcs.scalar.symm

end Sys2Proof.Machine
end

/-! Proofs of the family 20_memory: the register window, its reads and its writes (R34 to R46). -/

section
namespace Sys2Proof.Machine

/-! ### The address map (R35, R37) -/

theorem target_reserved_iff (off : Offset) :
    target off = .reserved ↔ ¬ (wordOffset off = 0x000 ∨ wordOffset off = 0x004 ∨
      (0x040 ≤ wordOffset off ∧ wordOffset off ≤ 0x05C) ∨ (0x100 ≤ wordOffset off ∧ wordOffset off ≤ 0x2FC)) := by
  rw [target_eq]
  split_ifs <;> simp_all

/-- The map names word `j` of `FR[i]` at each of the word's four bytes. -/
theorem target_frOffset (i : RegNum) (j : WordNum) {low : Nat} (hlow : low < 4) :
    target (BitVec.ofNat 12 (0x100 + 0x20 * i.toNat + 4 * j.toNat + low)) = .fr i j := by
  have hi := i.isLt
  have hj := j.isLt
  have ho : wordOffset (BitVec.ofNat 12 (0x100 + 0x20 * i.toNat + 4 * j.toNat + low)) =
      0x100 + 0x20 * i.toNat + 4 * j.toNat := by
    rw [wordOffset, BitVec.toNat_ofNat]
    omega
  have hreg : (0x100 + 0x20 * i.toNat + 4 * j.toNat - 0x100) / 0x20 = i.toNat := by omega
  have hword : (0x100 + 0x20 * i.toNat + 4 * j.toNat - 0x100) % 0x20 / 4 = j.toNat := by omega
  rw [target_eq, ho, if_neg (by omega), if_neg (by omega), if_neg (by omega), if_pos (by omega), hreg, hword,
    BitVec.ofNat_toNat, BitVec.ofNat_toNat, BitVec.setWidth_eq, BitVec.setWidth_eq]

/-- The map names word `j` of SCALAR at each of the word's four bytes. -/
theorem target_scalarOffset (j : WordNum) {low : Nat} (hlow : low < 4) :
    target (BitVec.ofNat 12 (0x040 + 4 * j.toNat + low)) = .scalar j := by
  have hj := j.isLt
  have ho : wordOffset (BitVec.ofNat 12 (0x040 + 4 * j.toNat + low)) = 0x040 + 4 * j.toNat := by
    rw [wordOffset, BitVec.toNat_ofNat]
    omega
  have hword : (0x040 + 4 * j.toNat - 0x040) / 4 = j.toNat := by omega
  rw [target_eq, ho, if_neg (by omega), if_neg (by omega), if_pos (by omega), hword, BitVec.ofNat_toNat,
    BitVec.setWidth_eq]

theorem target_and_mask (off : Offset) : target (off &&& 0xFFC) = target off := by
  simp only [target, BitVec.and_assoc, BitVec.and_self]

theorem windowRead_congr_target (s : State) {off off' : Offset} (h : target off = target off') :
    windowRead s off = windowRead s off' := by
  simp only [windowRead, h]

theorem memWrite_congr_target (s : State) {off off' : Offset} (h : target off = target off') (v : Word) :
    s.memWrite off v = s.memWrite off' v := by
  simp only [State.memWrite, h]

/-- Settles O15: an access depends on what the map names, and masking an offset twice is masking it once. -/
theorem lowOffsetBitsAreIgnored : Obligations.LowOffsetBitsAreIgnored := by
  unfold Obligations.LowOffsetBitsAreIgnored
  intro s off
  have h : target off = target (off &&& 0xFFC) := (target_and_mask off).symm
  exact ⟨windowRead_congr_target s h, memWrite_congr_target s h⟩

/-! ### Reads (R36, R38, R40, R41) -/

theorem windowRead_status (s : State) {off : Offset} (h : target off = .status) : windowRead s off = statusWord s := by
  simp only [windowRead, h]

theorem windowRead_scalar (s : State) {off : Offset} {j : WordNum} (h : target off = .scalar j) :
    windowRead s off = getWord s.scalar j := by
  simp only [windowRead, h]

theorem windowRead_fr (s : State) {off : Offset} {i : RegNum} {j : WordNum} (h : target off = .fr i j) :
    windowRead s off = getWord (s.readFR i) j := by
  simp only [windowRead, h]

theorem windowRead_cmd (s : State) {off : Offset} (h : target off = .cmd) : windowRead s off = 0 := by
  simp only [windowRead, h]

theorem windowRead_reserved (s : State) {off : Offset} (h : target off = .reserved) : windowRead s off = 0 := by
  simp only [windowRead, h]

theorem getWord_ofNat (v : Reg256) {n : Nat} (hn : n < 8) : getWord v (BitVec.ofNat 3 n) = v.extractLsb' (32 * n) 32 := by
  rw [getWord, BitVec.toNat_ofNat, Nat.mod_eq_of_lt hn]

/-- BUSY, ERR and ECODE stand at the bits 0, 1 and 4 of the STATUS word (R41). -/
theorem statusWord_eq_ofNat (s : State) :
    statusWord s =
      BitVec.ofNat 32 ((if s.busy = true then 1 else 0) + 2 * (if s.err = true then 1 else 0) + 16 * s.ecode.toNat) := by
  have hbits : ∀ (c : BitVec 4) (e b : Bool), 0#24 ++ c ++ 0#2 ++ BitVec.ofBool e ++ BitVec.ofBool b =
      BitVec.ofNat 32 ((if b = true then 1 else 0) + 2 * (if e = true then 1 else 0) + 16 * c.toNat) := by decide
  exact hbits s.ecode s.err s.busy

/-- The value a read returns, by the number of the word's offset. -/
theorem windowRead_eq (s : State) (off : Offset) :
    windowRead s off =
      if wordOffset off = 0x004 then statusWord s
      else if 0x040 ≤ wordOffset off ∧ wordOffset off ≤ 0x05C then
        s.scalar.extractLsb' (32 * ((wordOffset off - 0x040) / 4)) 32
      else if 0x100 ≤ wordOffset off ∧ wordOffset off ≤ 0x2FC then
        (s.readFR (BitVec.ofNat 4 ((wordOffset off - 0x100) / 0x20))).extractLsb'
          (32 * ((wordOffset off - 0x100) % 0x20 / 4)) 32
      else 0 := by
  have ht := target_eq off
  by_cases hcmd : wordOffset off = 0x000
  · simpa [hcmd] using windowRead_cmd s (by simpa [hcmd] using ht)
  rw [if_neg hcmd] at ht
  split_ifs at ht ⊢ with hst hsc hfr
  · exact windowRead_status s ht
  · rw [windowRead_scalar s ht, getWord_ofNat _ (by omega)]
  · rw [windowRead_fr s ht, getWord_ofNat _ (by omega)]
  · exact windowRead_reserved s ht

theorem step_memRead {s : State} {off : Offset} {rest : List Event} (hr : s.resetDone = true)
    (he : s.events = .memRead off :: rest) :
    step s = .next { s with events := rest, reads := windowRead s off :: s.reads } := step_event hr he

/-- Settles O12: a read changes the host's record alone, and no later read looks at that. -/
theorem readsFollowTheAddressMap : Obligations.ReadsFollowTheAddressMap := by
  unfold Obligations.ReadsFollowTheAddressMap
  intro s rest off hr he
  refine ⟨?_, windowRead_congr rfl rfl rfl⟩
  rw [step_memRead hr he, windowRead_eq, statusWord_eq_ofNat]
  rfl

/-! ### Writes (R36, R42, R43) -/

theorem step_memWrite {s : State} {off : Offset} {v : Word} {rest : List Event} (hr : s.resetDone = true)
    (he : s.events = .memWrite off v :: rest) : step s = .next (State.memWrite { s with events := rest } off v) :=
  step_event hr he

/-- Settles O8: the offsets of CMD, SCALAR and FR are those that are neither STATUS nor reserved. -/
theorem busyWritesAreDropped : Obligations.BusyWritesAreDropped := by
  unfold Obligations.BusyWritesAreDropped
  intro s rest off v hr hb he o u
  obtain ⟨f, hf⟩ := s.busy_eq_true.mp hb
  have ho : o = wordOffset off := rfl
  have hreserved := target_reserved_iff off
  rw [step_memWrite hr he]
  split_ifs with hdrop hclear
  · refine congrArg _ (memWrite_busy (s := u) hf off v (fun hst => ?_) (fun hres => ?_))
    · have := wordOffset_of_target_status hst
      omega
    · have := hreserved.mp hres
      omega
  · obtain ⟨hst, hv⟩ := hclear
    rw [memWrite_status v (target_of_wordOffset_status hst), if_pos hv]
    rfl
  · by_cases hst : o = 0x004
    · rw [memWrite_status v (target_of_wordOffset_status hst), if_neg fun hv => hclear ⟨hst, hv⟩]
    · rw [memWrite_reserved v (hreserved.mpr (by omega))]

/-- Settles O16: a reserved offset is named as such by the map, and neither access looks at the rest of the state. -/
theorem reservedOffsetsReadZeroIgnoreWrites : Obligations.ReservedOffsetsReadZeroIgnoreWrites := by
  unfold Obligations.ReservedOffsetsReadZeroIgnoreWrites
  intro s rest off hr ho
  have ht : target off = .reserved := (target_reserved_iff off).mpr (by unfold wordOffset; omega)
  exact ⟨windowRead_reserved s ht, fun v he => by rw [step_memWrite hr he, memWrite_reserved v ht]⟩

/-! ### Words, bytes and bits of a register (R38, R40) -/

theorem getElem?_leBytes {n m : Nat} (x : Nat) (hm : m < n) :
    (leBytes n x)[m]? = some (BitVec.ofNat 8 (x / 256 ^ m)) := by
  induction n generalizing m x with
  | zero => omega
  | succ n ih =>
    cases m with
    | zero => simp [leBytes]
    | succ m => rw [leBytes, List.getElem?_cons_succ, ih (x / 256) (by omega), Nat.div_div_eq_div_mul, pow_succ']

/-- Byte `m` of the 32-byte encoding is the bits `8m+7` to `8m` (R12). -/
theorem getElem?_leBytes_toNat (v : Reg256) {m : Nat} (hm : m < 32) :
    (leBytes 32 v.toNat)[m]? = some (v.extractLsb' (8 * m) 8) := by
  have hpow : 256 ^ m = 2 ^ (8 * m) := (pow_mul 2 8 m).symm
  rw [getElem?_leBytes _ hm, hpow, BitVec.extractLsb', Nat.shiftRight_eq_div_pow]

theorem getLsbD_getWord (v : Reg256) {b : Nat} (hb : b < 256) :
    (getWord v (BitVec.ofNat 3 (b / 32))).getLsbD (b % 32) = v.getLsbD b := by
  have hlt : b % 32 < 32 := Nat.mod_lt _ (by decide)
  rw [getWord_ofNat v (by omega), BitVec.getLsbD_extractLsb', decide_eq_true hlt, Bool.true_and, Nat.div_add_mod]

/-- Byte `m` of a register is byte `m % 4` of its word `m / 4`. -/
theorem extractLsb'_getWord (v : Reg256) {m : Nat} (hm : m < 32) :
    (getWord v (BitVec.ofNat 3 (m / 4))).extractLsb' (8 * (m % 4)) 8 = v.extractLsb' (8 * m) 8 := by
  refine BitVec.eq_of_getLsbD_eq fun b hb => ?_
  have hlane : 8 * (m % 4) + b < 32 := by omega
  have hbit : 32 * (m / 4) + (8 * (m % 4) + b) = 8 * m + b := by omega
  simp [getWord_ofNat v (show m / 4 < 8 by omega), hb, hlane, hbit]

/-- A register is known by its eight words. -/
theorem eq_of_getWord_eq {v w : Reg256} (h : ∀ j, getWord v j = getWord w j) : v = w := by
  refine BitVec.eq_of_getLsbD_eq fun b hb => ?_
  rw [← getLsbD_getWord v hb, h, getLsbD_getWord w hb]

/-- Settles O13: the offset names word `j` of `FR[i]`, and a write replaces that word by `setWord`. -/
theorem fieldRegisterWords : Obligations.FieldRegisterWords := by
  unfold Obligations.FieldRegisterWords
  intro s i j low hlow
  have ht := target_frOffset i j hlow
  refine ⟨windowRead_fr s ht, fun m hm => ?_, fun rest v hr hb he => ?_⟩
  · rw [getElem?_leBytes_toNat _ hm, extractLsb'_getWord _ hm]
  · have hn : s.inflight = none := s.busy_eq_false.mp hb
    have hstep := step_memWrite hr he
    rw [memWrite_fr (s := { s with events := rest }) v hn ht] at hstep
    refine ⟨_, hstep, fun b hb => ?_, fun r hri => State.readFR_writeFR_other _ hri _, rfl⟩
    rw [State.readFR_writeFR_same]
    exact getLsbD_setWord _ j v b hb

/-- Settles O14: the offset names word `j` of SCALAR, and a write replaces that word by `setWord`. -/
theorem scalarWords : Obligations.ScalarWords := by
  unfold Obligations.ScalarWords
  intro s j low hlow
  have ht := target_scalarOffset j hlow
  refine ⟨windowRead_scalar s ht, fun i hi => ⟨(getLsbD_getWord _ hi).symm, _, getElem?_leBytes_toNat _ (by omega), ?_⟩,
    fun rest v hr hb he => ?_⟩
  · have hlt : i % 8 < 8 := Nat.mod_lt _ (by decide)
    rw [BitVec.getLsbD_extractLsb', decide_eq_true hlt, Bool.true_and, Nat.div_add_mod]
  · have hn : s.inflight = none := s.busy_eq_false.mp hb
    have hstep := step_memWrite hr he
    rw [memWrite_scalar (s := { s with events := rest }) v hn ht] at hstep
    exact ⟨_, hstep, fun b hb => getLsbD_setWord _ j v b hb, rfl⟩

/-! ### Loading a register word by word (R38, R110(3)) -/

/-- `v` after its words `js` are replaced, one after another, by those of `x`. -/
def loadWords (x : Reg256) (js : List Nat) (v : Reg256) : Reg256 :=
  js.foldl (fun v j => setWord v (BitVec.ofNat 3 j) (getWord x (BitVec.ofNat 3 j))) v

/-- A word that was right before, or that is among those written, is right after. -/
theorem getWord_loadWords {x v : Reg256} {js : List Nat} {q : WordNum}
    (h : getWord v q = getWord x q ∨ q.toNat ∈ js) : getWord (loadWords x js v) q = getWord x q := by
  induction js generalizing v with
  | nil => exact h.resolve_right (by simp)
  | cons j js ih =>
    refine ih ?_
    by_cases hq : q = BitVec.ofNat 3 j
    · exact .inl (by rw [hq, getWord_setWord_same])
    · have hne : q.toNat ≠ j := fun e => hq (by rw [← e, BitVec.ofNat_toNat, BitVec.setWidth_eq])
      rw [getWord_setWord_other v hq]
      exact h.imp_right fun hmem => (List.mem_cons.mp hmem).resolve_left hne

theorem loadWords_range (x v : Reg256) : loadWords x (List.range 8) v = x :=
  eq_of_getWord_eq fun q => getWord_loadWords (.inr (List.mem_range.mpr q.isLt))

@[simp] theorem State.writeFR_writeFR (s : State) (i : RegNum) (v w : Reg256) :
    (s.writeFR i v).writeFR i w = s.writeFR i w := by
  simp [State.writeFR]

@[simp] theorem State.writeFR_readFR (s : State) (i : RegNum) : s.writeFR i (s.readFR i) = s := by
  simp [State.writeFR, State.readFR]

/-- The host's write of word `j` of `x` to word `j` of `FR[i]`, as in `writeFREvents`. -/
def frWordWrite (i : RegNum) (x : Reg256) (j : Nat) : Event :=
  .memWrite (BitVec.ofNat 12 (0x100 + 0x20 * i.toNat + 4 * j)) (getWord x (BitVec.ofNat 3 j))

theorem writeFREvents_eq (i : RegNum) (x : Reg256) : writeFREvents i x = (List.range 8).map (frWordWrite i x) := rfl

theorem step_frWordWrite {s : State} {i : RegNum} {x : Reg256} {j : Nat} {rest : List Event} (hr : s.resetDone = true)
    (hn : s.inflight = none) (hj : j < 8) (he : s.events = frWordWrite i x j :: rest) :
    step s = .next (State.writeFR { s with events := rest } i
      (setWord (s.readFR i) (BitVec.ofNat 3 j) (getWord x (BitVec.ofNat 3 j)))) := by
  have ht : target (BitVec.ofNat 12 (0x100 + 0x20 * i.toNat + 4 * j)) = .fr i (BitVec.ofNat 3 j) := by
    simpa [Nat.mod_eq_of_lt hj] using target_frOffset i (BitVec.ofNat 3 j) (low := 0) (by decide)
  rw [step_memWrite hr he, memWrite_fr (s := { s with events := rest }) _ hn ht]
  rfl

/-- A run of such writes on an idle block loads the words into `FR[i]` and does nothing else. -/
theorem runSteps_frWordWrites {js : List Nat} {s : State} {i : RegNum} {x : Reg256} {rest : List Event}
    (hr : s.resetDone = true) (hn : s.inflight = none) (hjs : ∀ j ∈ js, j < 8)
    (he : s.events = js.map (frWordWrite i x) ++ rest) :
    runSteps js.length s = .next (State.writeFR { s with events := rest } i (loadWords x js (s.readFR i))) := by
  induction js generalizing s with
  | nil =>
    obtain rfl : rest = s.events := he.symm
    exact congrArg Host.Outcome.next (s.writeFR_readFR i).symm
  | cons j js ih =>
    obtain ⟨hj, hjs⟩ := List.forall_mem_cons.mp hjs
    rw [List.length_cons, runSteps_succ (step_frWordWrite hr hn hj he), ih (by exact hr) (by exact hn) hjs rfl,
      State.readFR_writeFR_same]
    exact congrArg Host.Outcome.next (State.writeFR_writeFR { s with events := rest } i _ _)

/-- Settles O17: the run of the eight writes, whose words are all the words of the register. -/
theorem eightWritesLoadARegister : Obligations.EightWritesLoadARegister := by
  unfold Obligations.EightWritesLoadARegister
  intro s rest i x hr hb he
  have hrun := runSteps_frWordWrites hr (s.busy_eq_false.mp hb) (fun j hj => List.mem_range.mp hj)
    (he.trans (congrArg (· ++ rest) (writeFREvents_eq i x)))
  rw [List.length_range, loadWords_range] at hrun
  exact ⟨_, hrun, State.readFR_writeFR_same _ i x, fun r hri => State.readFR_writeFR_other _ hri x, rfl⟩

/-! ### Bus accesses (R34, R37) -/

theorem busAccess_outside (s : State) {acc : BusAccess}
    (h : acc.addr < Config.windowBase ∨ Config.windowBase + Config.windowSize ≤ acc.addr) :
    s.busAccess acc = .refused .outsideWindow := by
  rw [State.busAccess, if_pos h]

section InsideWindow

variable (s : State) {acc : BusAccess} {off : Offset} (haddr : acc.addr = Config.windowBase + off.toNat)
include haddr

/-- Every offset of twelve bits lies inside the 4096 bytes of the window. -/
theorem not_outsideWindow : ¬ (acc.addr < Config.windowBase ∨ Config.windowBase + Config.windowSize ≤ acc.addr) := by
  have hoff := off.isLt
  have hsize : Config.windowSize = 4096 := rfl
  omega

theorem offset_of_addr : BitVec.ofNat 12 (acc.addr - Config.windowBase) = off := by
  rw [haddr, Nat.add_sub_cancel_left, BitVec.ofNat_toNat, BitVec.setWidth_eq]

theorem busAccess_narrow (hlanes : acc.lanes ≠ 0xF) : s.busAccess acc = .refused .narrowAccess := by
  rw [State.busAccess, if_neg (not_outsideWindow haddr), if_pos hlanes]

theorem busAccess_read (hlanes : acc.lanes = 0xF) (hdata : acc.wdata = none) :
    s.busAccess acc = .next (s.memRead off) := by
  rw [State.busAccess, if_neg (not_outsideWindow haddr), if_neg (not_not.mpr hlanes), offset_of_addr haddr]
  simp only [hdata]

theorem busAccess_write {v : Word} (hlanes : acc.lanes = 0xF) (hdata : acc.wdata = some v) :
    s.busAccess acc = .next (s.memWrite off v) := by
  rw [State.busAccess, if_neg (not_outsideWindow haddr), if_neg (not_not.mpr hlanes), offset_of_addr haddr]
  simp only [hdata]

end InsideWindow

/-- Settles O18: both steps take the front event, and the bus access resolves to the other one. -/
theorem busAccessesResolveToTheWindow : Obligations.BusAccessesResolveToTheWindow := by
  unfold Obligations.BusAccessesResolveToTheWindow
  intro s rest acc hr he
  have hstep : step s = State.busAccess { s with events := rest } acc := step_event hr he
  rw [hstep]
  refine ⟨fun off haddr hlanes => ⟨fun hread => ?_, fun v hwrite => ?_⟩,
    fun off haddr hlanes => busAccess_narrow _ haddr hlanes, busAccess_outside _⟩
  · rw [busAccess_read _ haddr hlanes hread]
    exact (step_memRead (s := { s with events := .memRead off :: rest }) hr rfl).symm
  · rw [busAccess_write _ haddr hlanes hwrite]
    exact (step_memWrite (s := { s with events := .memWrite off v :: rest }) hr rfl).symm

/-! ### A second command (R43) -/

/-- Settles O37: `exec` is `runCommand`, which turns away a command beside another one. -/
theorem execTurnsAwayASecondCommand : Obligations.ExecTurnsAwayASecondCommand := by
  unfold Obligations.ExecTurnsAwayASecondCommand
  intro i s f hf hne
  rw [exec_eq_runCommand, runCommand_other hf hne]

end Sys2Proof.Machine
end

/-! Proofs of the family 30_encoding: command words and the decoder, and the write to CMD (R50 to R62). -/

section
namespace Sys2Proof.Machine

/-! ### A word and its fields (R51 to R53, R59) -/

/-- `w[31:28]`, outside the fields of every format. -/
def topField (w : Word) : BitVec 4 := w.extractLsb' 28 4

/-- A word is known by its five fields and its top four bits. -/
theorem word_eq_iff_fields {v w : Word} : v = w ↔
    opcodeField v = opcodeField w ∧ rdField v = rdField w ∧ rs1Field v = rs1Field w ∧ rs2Field v = rs2Field w ∧
      kField v = kField w ∧ topField v = topField w := by
  refine ⟨fun h => by simp [h], fun ⟨hop, hrd, hrs1, hrs2, hk, htop⟩ => BitVec.eq_of_getLsbD_eq fun n hn => ?_⟩
  have hbit : ∀ {start len : Nat}, v.extractLsb' start len = w.extractLsb' start len → start ≤ n → n < start + len →
      v.getLsbD n = w.getLsbD n := fun {start len} h hlo hhi => by
    have := congrArg (·.getLsbD (n - start)) h
    simpa [show n - start < len by omega, Nat.add_sub_cancel' hlo] using this
  by_cases h8 : n < 8
  · exact hbit hop (by omega) (by omega)
  by_cases h12 : n < 12
  · exact hbit hrd (by omega) (by omega)
  by_cases h16 : n < 16
  · exact hbit hrs1 (by omega) (by omega)
  by_cases h20 : n < 20
  · exact hbit hrs2 (by omega) (by omega)
  by_cases h28 : n < 28
  · exact hbit hk (by omega) (by omega)
  · exact hbit htop (by omega) (by omega)

/-- A range of bits is 0 exactly when its low part and its high part are. -/
theorem extractLsb'_eq_zero_iff {w : Word} {start m n : Nat} :
    w.extractLsb' start (m + n) = 0 ↔ w.extractLsb' start m = 0 ∧ w.extractLsb' (start + m) n = 0 := by
  refine ⟨fun h => ⟨?_, ?_⟩, fun ⟨hlow, hhigh⟩ => extractLsb'_eq_zero_of_parts hlow hhigh⟩ <;>
    refine BitVec.eq_of_getLsbD_eq fun b hb => ?_
  · simpa [hb, show b < m + n by omega] using congrArg (·.getLsbD b) h
  · simpa [hb, show m + b < m + n by omega, Nat.add_assoc] using congrArg (·.getLsbD (m + b)) h

/-- Which fields a format lacks; the top four bits belong to none (R51 to R53, R59). -/
theorem zeroFieldsClear_iff (fmt : Format) (w : Word) : zeroFieldsClear fmt w = true ↔
    topField w = 0 ∧
      match fmt with
      | .R => kField w = 0
      | .U => rs2Field w = 0 ∧ kField w = 0
      | .S => rdField w = 0 := by
  cases fmt with
  | R =>
    have h : w.extractLsb' 20 12 = 0 ↔ kField w = 0 ∧ topField w = 0 := extractLsb'_eq_zero_iff (m := 8) (n := 4)
    simp only [zeroFieldsClear, beq_iff_eq, h, and_comm]
  | U =>
    have hhigh : w.extractLsb' 20 12 = 0 ↔ kField w = 0 ∧ topField w = 0 := extractLsb'_eq_zero_iff (m := 8) (n := 4)
    have h : w.extractLsb' 16 16 = 0 ↔ rs2Field w = 0 ∧ w.extractLsb' 20 12 = 0 :=
      extractLsb'_eq_zero_iff (m := 4) (n := 12)
    simp only [zeroFieldsClear, beq_iff_eq, h, hhigh]
    tauto
  | S =>
    simp only [zeroFieldsClear, Bool.and_eq_true, beq_iff_eq]
    exact and_comm

/-- The command made of a word's fields has those fields again: the ones its format lacks are 0 in the word. -/
theorem fields_instrOf {op : Opcode} {w : Word} (h : zeroFieldsClear (formatOf op) w = true) :
    (instrOf op w).opcode = op ∧ (instrOf op w).rd = rdField w ∧ (instrOf op w).rs1 = rs1Field w ∧
      (instrOf op w).rs2 = rs2Field w ∧ (instrOf op w).k = kField w := by
  obtain ⟨-, hzero⟩ := (zeroFieldsClear_iff _ w).mp h
  cases op with
  | fadd => exact ⟨rfl, rfl, rfl, rfl, hzero.symm⟩
  | fsub => exact ⟨rfl, rfl, rfl, rfl, hzero.symm⟩
  | fmul => exact ⟨rfl, rfl, rfl, rfl, hzero.symm⟩
  | fsqr => exact ⟨rfl, rfl, rfl, hzero.1.symm, hzero.2.symm⟩
  | finv => exact ⟨rfl, rfl, rfl, hzero.1.symm, hzero.2.symm⟩
  | fcswap => exact ⟨rfl, hzero.symm, rfl, rfl, rfl⟩
  | ladder => exact ⟨rfl, rfl, rfl, hzero.1.symm, hzero.2.symm⟩

theorem encode_instrOf {op : Opcode} {w : Word} (hop : opcodeField w = opcodeByte op)
    (h : zeroFieldsClear (formatOf op) w = true) : encode (instrOf op w) = w := by
  obtain ⟨hop', hrd, hrs1, hrs2, hk⟩ := fields_instrOf h
  obtain ⟨heop, herd, hers1, hers2, hek, hetop⟩ := Laws.encoding_fields (instrOf op w)
  obtain ⟨htop, -⟩ := (zeroFieldsClear_iff _ w).mp h
  exact word_eq_iff_fields.mpr ⟨by rw [heop, hop', hop], herd.trans hrd, hers1.trans hrs1, hers2.trans hrs2,
    hek.trans hk, hetop.trans htop.symm⟩

/-! ### The three answers of the decoder (R57 to R60) -/

/-- The opcode bytes of R56. -/
def opcodeBytes : List (BitVec 8) := [0x01, 0x02, 0x03, 0x04, 0x05, 0x10, 0x20]

theorem opcodeByte_of_opcodeOf {b : BitVec 8} {op : Opcode} (h : opcodeOf b = some op) : b = opcodeByte op := by
  unfold opcodeOf at h
  split_ifs at h <;> cases h <;> assumption

theorem opcodeOf_eq_none_iff {b : BitVec 8} : opcodeOf b = none ↔ b ∉ opcodeBytes := by
  unfold opcodeOf opcodeBytes
  split_ifs <;> simp_all

theorem mem_opcodeBytes_iff {b : BitVec 8} : b ∈ opcodeBytes ↔ ∃ op, b = opcodeByte op := by
  rw [← not_iff_not, ← opcodeOf_eq_none_iff, Option.eq_none_iff_forall_ne_some]
  refine not_exists.symm.trans (not_congr ?_)
  exact exists_congr fun op => ⟨opcodeByte_of_opcodeOf, fun h => h ▸ opcodeOf_opcodeByte op⟩

theorem opcodeByte_injective : Function.Injective opcodeByte := fun a b h =>
  Option.some.inj (by rw [← opcodeOf_opcodeByte a, h, opcodeOf_opcodeByte])

theorem decode_illegal {w : Word} (h : opcodeField w ∉ opcodeBytes) : decode w = .error .illegalOpcode := by
  simp only [decode, opcodeOf_eq_none_iff.mpr h]

theorem decode_of_opcode {w : Word} {op : Opcode} (h : opcodeField w = opcodeByte op) :
    decode w = if zeroFieldsClear (formatOf op) w then .ok (instrOf op w) else .error .reservedField := by
  simp only [decode, h, opcodeOf_opcodeByte]

/-- The word holds the byte of an opcode and the zero fields of its format are 0: what the decoder accepts. -/
def AcceptedAs (w : Word) (op : Opcode) : Prop := opcodeField w = opcodeByte op ∧ zeroFieldsClear (formatOf op) w = true

theorem decode_accepted {w : Word} {op : Opcode} (h : AcceptedAs w op) : decode w = .ok (instrOf op w) := by
  rw [decode_of_opcode h.1, if_pos h.2]

/-- Every word is of one of the three kinds of R60. -/
theorem decode_cases (w : Word) :
    (opcodeField w ∉ opcodeBytes ∧ (∀ op, ¬ AcceptedAs w op) ∧ decode w = .error .illegalOpcode) ∨
    (opcodeField w ∈ opcodeBytes ∧ (∀ op, ¬ AcceptedAs w op) ∧ decode w = .error .reservedField) ∨
    (∃ op, opcodeField w ∈ opcodeBytes ∧ AcceptedAs w op ∧ decode w = .ok (instrOf op w)) := by
  by_cases hmem : opcodeField w ∈ opcodeBytes
  · obtain ⟨op, hop⟩ := mem_opcodeBytes_iff.mp hmem
    by_cases hz : zeroFieldsClear (formatOf op) w = true
    · exact .inr (.inr ⟨op, hmem, ⟨hop, hz⟩, decode_accepted ⟨hop, hz⟩⟩)
    · refine .inr (.inl ⟨hmem, fun op' h => hz ?_, by rw [decode_of_opcode hop, if_neg hz]⟩)
      rw [opcodeByte_injective (hop.symm.trans h.1)]
      exact h.2
  · exact .inl ⟨hmem, fun op h => hmem (mem_opcodeBytes_iff.mpr ⟨op, h.1⟩), decode_illegal hmem⟩

/-! ### The match and mask table (R56, R59) -/

/-- The mask of R56, which depends on the format alone. -/
def maskOf : Format → Word
  | .R => 0xFFF000FF
  | .U => 0xFFFF00FF
  | .S => 0xF0000FFF

/-- The row of an opcode in the table of R56. -/
def rowOf (op : Opcode) : CommandRow := ⟨op, (opcodeByte op).setWidth 32, maskOf (formatOf op)⟩

theorem commandRows_eq :
    commandRows = [Opcode.fadd, .fsub, .fmul, .fsqr, .finv, .fcswap, .ladder].map rowOf := by decide

theorem mem_commandRows_iff {row : CommandRow} : row ∈ commandRows ↔ ∃ op, row = rowOf op := by
  rw [commandRows_eq, List.mem_map]
  refine exists_congr fun op => ⟨fun h => h.2.symm, fun h => ⟨?_, h.symm⟩⟩
  cases op <;> decide

/-- The fields of a byte alone. -/
theorem fields_setWidth (b : BitVec 8) : opcodeField (b.setWidth 32) = b ∧ rdField (b.setWidth 32) = 0 ∧
    rs1Field (b.setWidth 32) = 0 ∧ rs2Field (b.setWidth 32) = 0 ∧ kField (b.setWidth 32) = 0 ∧
    topField (b.setWidth 32) = 0 := by
  revert b
  decide +kernel

theorem fields_and (w m : Word) : opcodeField (w &&& m) = opcodeField w &&& opcodeField m ∧
    rdField (w &&& m) = rdField w &&& rdField m ∧ rs1Field (w &&& m) = rs1Field w &&& rs1Field m ∧
    rs2Field (w &&& m) = rs2Field w &&& rs2Field m ∧ kField (w &&& m) = kField w &&& kField m ∧
    topField (w &&& m) = topField w &&& topField m :=
  ⟨BitVec.extractLsb'_and, BitVec.extractLsb'_and, BitVec.extractLsb'_and, BitVec.extractLsb'_and,
    BitVec.extractLsb'_and, BitVec.extractLsb'_and⟩

/-- The mask covers the opcode byte, the top four bits and the fields the format lacks. -/
theorem fields_maskOf (fmt : Format) : opcodeField (maskOf fmt) = BitVec.allOnes 8 ∧
    rdField (maskOf fmt) = (if fmt = .S then BitVec.allOnes 4 else 0#4) ∧ rs1Field (maskOf fmt) = 0#4 ∧
    rs2Field (maskOf fmt) = (if fmt = .U then BitVec.allOnes 4 else 0#4) ∧
    kField (maskOf fmt) = (if fmt = .S then 0#8 else BitVec.allOnes 8) ∧ topField (maskOf fmt) = BitVec.allOnes 4 := by
  cases fmt <;> decide

/-- A word agrees with a row in the masked bits exactly when it passes the checks of R57 (R59). -/
theorem and_maskOf_eq_iff (fmt : Format) (w : Word) (b : BitVec 8) :
    w &&& maskOf fmt = b.setWidth 32 ↔ opcodeField w = b ∧ zeroFieldsClear fmt w = true := by
  rw [word_eq_iff_fields, zeroFieldsClear_iff]
  simp only [fields_and, fields_setWidth, fields_maskOf]
  cases fmt <;>
    simp only [reduceIte, reduceCtorEq, BitVec.and_allOnes, BitVec.ofNat_eq_ofNat, BitVec.and_zero] <;> tauto

theorem rowOf_matches_iff (op : Opcode) (w : Word) :
    w &&& (rowOf op).mask = (rowOf op).matchBits ↔ AcceptedAs w op := and_maskOf_eq_iff _ w _

/-- A row of R56 matches a word exactly when the decoder accepts it (R59, last sentence). -/
theorem exists_row_matches_iff (w : Word) :
    (∃ row ∈ commandRows, w &&& row.mask = row.matchBits) ↔ ∃ op, AcceptedAs w op := by
  constructor
  · rintro ⟨row, hrow, hw⟩
    obtain ⟨op, rfl⟩ := mem_commandRows_iff.mp hrow
    exact ⟨op, (rowOf_matches_iff op w).mp hw⟩
  · rintro ⟨op, h⟩
    exact ⟨rowOf op, mem_commandRows_iff.mpr ⟨op, rfl⟩, (rowOf_matches_iff op w).mpr h⟩
/-! ### The encoding obligations -/

/-- Settles O2: the fields packed into the word are the ones the decoder takes out. -/
theorem decodeOfEncode : Obligations.DecodeOfEncode := by
  unfold Obligations.DecodeOfEncode
  exact decode_encode

/-- Settles O3: a matching word holds 0 in the fields its format lacks, so its fields are those of the command. -/
theorem commandWordsRoundTrip : Obligations.CommandWordsRoundTrip := by
  unfold Obligations.CommandWordsRoundTrip
  intro w h
  obtain ⟨op, hw⟩ := (exists_row_matches_iff w).mp h
  exact ⟨instrOf op w, decode_accepted hw, encode_instrOf hw.1 hw.2⟩

/-- Settles O4: the decoder's three answers, and the rows of the table read as what it accepts. -/
theorem everyWordIsOfOneKind : Obligations.EveryWordIsOfOneKind := by
  unfold Obligations.EveryWordIsOfOneKind
  intro w
  refine ⟨?_, fun row hrow row' hrow' hm hm' => ?_, ?_, ?_⟩
  · rw [exists_row_matches_iff]
    rcases decode_cases w with ⟨-, hno, hd⟩ | ⟨-, hno, hd⟩ | ⟨op, -, hw, hd⟩
    · simp [hd, hno]
    · simp [hd, hno]
    · exact iff_of_true ⟨_, hd⟩ ⟨op, hw⟩
  · obtain ⟨op, rfl⟩ := mem_commandRows_iff.mp hrow
    obtain ⟨op', rfl⟩ := mem_commandRows_iff.mp hrow'
    have hop := ((rowOf_matches_iff op w).mp hm).1
    have hop' := ((rowOf_matches_iff op' w).mp hm').1
    exact congrArg rowOf (opcodeByte_injective (hop.symm.trans hop'))
  · show _ ↔ opcodeField w ∉ opcodeBytes
    rcases decode_cases w with ⟨hmem, -, hd⟩ | ⟨hmem, -, hd⟩ | ⟨op, hmem, -, hd⟩ <;> simp [hd, hmem]
  · show _ ↔ opcodeField w ∈ opcodeBytes ∧ _
    rw [exists_row_matches_iff]
    rcases decode_cases w with ⟨hmem, -, hd⟩ | ⟨hmem, hno, hd⟩ | ⟨op, -, hw, hd⟩
    · simp [hd, hmem]
    · simp [hd, hmem, hno]
    · simpa [hd] using fun _ => ⟨op, hw⟩

/-- Settles O1: each word is the encoding of its command. -/
theorem specWordsDecode : Obligations.SpecWordsDecode := by
  unfold Obligations.SpecWordsDecode
  exact ⟨decode_encode (.fadd 0 1 2), decode_encode (.fsub 0 1 2), decode_encode (.fmul 15 15 0),
    decode_encode (.fsqr 3 4), decode_encode (.finv 1 0), decode_encode (.fcswap 2 3 254), decode_encode (.ladder 8 6)⟩

/-! ### A write to CMD (R57, R58) -/

theorem target_zero : target 0x000 = .cmd := by decide

theorem memWrite_cmd (s : State) (w : Word) : s.memWrite 0x000 w = s.writeCmd w := by
  simp only [State.memWrite, target_zero]

theorem writeCmd_busy {s : State} (w : Word) (hb : s.busy = true) : s.writeCmd w = s.raise .busyWrite := if_pos hb

theorem writeCmd_error {s : State} {w : Word} {e : DecodeError} (hb : s.busy = false) (hd : decode w = .error e) :
    s.writeCmd w = s.raise (decodeErrorCode e) := by
  simp [State.writeCmd, hb, hd]

theorem step_writeCmd {s : State} {w : Word} {rest : List Event} (hr : s.resetDone = true)
    (he : s.events = .memWrite 0x000 w :: rest) : step s = .next (State.writeCmd { s with events := rest } w) := by
  rw [step_memWrite hr he, memWrite_cmd]

/-- The condition of R57 and R59 for a RESERVED_FIELD error, in the bits of the word. -/
def HasReservedBits (w : Word) : Prop :=
  (opcodeField w ∈ ([0x01, 0x02, 0x03] : List (BitVec 8)) ∧ w.extractLsb' 20 12 ≠ 0) ∨
    (opcodeField w ∈ ([0x04, 0x05, 0x20] : List (BitVec 8)) ∧ w.extractLsb' 16 16 ≠ 0) ∨
    (opcodeField w = 0x10 ∧ (w.extractLsb' 8 4 ≠ 0 ∨ w.extractLsb' 28 4 ≠ 0))

theorem hasReservedBits_iff {w : Word} {op : Opcode} (h : opcodeField w = opcodeByte op) :
    HasReservedBits w ↔ ¬ zeroFieldsClear (formatOf op) w = true := by
  unfold HasReservedBits
  rw [h]
  cases op <;> simp [opcodeByte, formatOf, zeroFieldsClear, imp_iff_not_or]

/-- Settles O5: after the busy check the write is answered as the decoder answers the word. -/
theorem commandWriteDecodesAndIssues : Obligations.CommandWriteDecodesAndIssues := by
  unfold Obligations.CommandWriteDecodesAndIssues
  intro s rest w hr he op u
  rw [step_writeCmd hr he]
  split
  · next hb => exact congrArg _ (writeCmd_busy (s := u) w hb)
  next hb =>
  have hb' : u.busy = false := Bool.eq_false_iff.mpr hb
  split
  · next hmem => exact congrArg _ (writeCmd_error hb' (decode_illegal hmem))
  next hmem =>
  obtain ⟨c, hc⟩ := mem_opcodeBytes_iff.mp (not_not.mp hmem)
  split
  · next hres =>
    have hz := (hasReservedBits_iff hc).mp hres
    exact congrArg _ (writeCmd_error hb' (by rw [decode_of_opcode hc, if_neg hz]))
  · next hres =>
    have hz := not_not.mp ((hasReservedBits_iff hc).not.mp hres)
    obtain ⟨hop, hrd, hrs1, hrs2, hk⟩ := fields_instrOf hz
    refine ⟨instrOf c w, workStart (instrOf c w) (u.capture (instrOf c w)), ?_, (congrArg opcodeByte hop).trans hc.symm,
      hrd, hrs1, hrs2, hk⟩
    rw [writeCmd_issue (s := u) (u.busy_eq_false.mp hb') (decode_accepted ⟨hc, hz⟩), State.issue, State.capture, hrs1,
      hrs2]
    rfl

theorem toNat_opcodeField (w : Word) : (opcodeField w).toNat = w.toNat % 256 := by
  simp [opcodeField]

/-- Settles O6: the ranges of R58 miss the opcode bytes. -/
theorem illegalOpcodesRecordAnError : Obligations.IllegalOpcodesRecordAnError := by
  unfold Obligations.IllegalOpcodesRecordAnError
  refine ⟨by decide +kernel, fun s rest w hr he hb hbyte => ?_⟩
  have hmem : opcodeField w ∉ opcodeBytes := by
    intro h
    have hnat : w.toNat % 256 ∈ opcodeBytes.map BitVec.toNat :=
      toNat_opcodeField w ▸ List.mem_map_of_mem h
    simp [opcodeBytes] at hnat
    omega
  have hwrite := writeCmd_error (s := { s with events := rest }) hb (decode_illegal hmem)
  refine ⟨_, (step_writeCmd hr he).trans (congrArg _ hwrite), rfl, ?_, fun herr => ?_⟩
  · simpa using hb
  · simp [herr, decodeErrorCode, errorNumber]

end Sys2Proof.Machine
end

/-! Proofs of the family 30_encoding: LSTEP as one iteration of the ladder (R63, R89(a)). -/

section
namespace Sys2Proof.Machine

open Sys2Proof.Config

/-! ### Commands one after another (R44, R110) -/

/-- What a command leaves of an idle block: its result written from the operands as they stand, and nothing in flight. -/
def State.after (s : State) (i : Instr) : State := (commitOf i (s.capture i) s).retire

theorem exec_idle {s : State} (h : s.inflight = none) (i : Instr) : exec i s = .next (s.after i) :=
  exec_of_ready (ready_of_idle h i)

theorem State.after_inflight (s : State) (i : Instr) : (s.after i).inflight = none := rfl

theorem runCommands_idle {s : State} (h : s.inflight = none) (is : List Instr) :
    runCommands is s = .next (is.foldl State.after s) := by
  induction is generalizing s with
  | nil => rfl
  | cons i is ih =>
    simp only [runCommands, exec_idle h]
    exact ih (s.after_inflight i)

/-- The frame of a list of commands: the registers of `ds` apart, all the block's registers and flags stay (R24, R26). -/
structure CommandsFrame (ds : List RegNum) (s t : State) : Prop where
  others : ∀ r, r ∉ ds → t.readFR r = s.readFR r
  scalar : t.scalar = s.scalar
  err : t.err = s.err
  ecode : t.ecode = s.ecode
  inflight : t.inflight = s.inflight

theorem commandsFrame_foldl {s : State} (h : s.inflight = none) (is : List Instr) :
    CommandsFrame (is.flatMap destinations) s (is.foldl State.after s) := by
  induction is generalizing s with
  | nil => exact ⟨fun _ _ => rfl, rfl, rfl, rfl, rfl⟩
  | cons i is ih =>
    have hi := completesWriting_commitOf i (s.capture i) s
    have his := ih (s.after_inflight i)
    rw [List.flatMap_cons]
    refine ⟨fun r hr => ?_, his.scalar.trans hi.scalar, his.err.trans hi.err, his.ecode.trans hi.ecode,
      his.inflight.trans h.symm⟩
    obtain ⟨hr1, hr2⟩ := not_or.mp (List.mem_append.not.mp hr)
    exact (his.others r hr2).trans (hi.others r hr1)

/-! ### The registers of LSTEP as the ladder's variables (R82, R89(a)) -/

/-- The register numbers of the table of R63: F0 to F5 hold a to f, F6 the base and F7 the curve constant. -/
def LadderWork.reg (w : LadderWork) (r : RegNum) : Nat :=
  match r.toNat with
  | 0 => w.a
  | 1 => w.b
  | 2 => w.c
  | 3 => w.d
  | 4 => w.e
  | 5 => w.f
  | 6 => w.x
  | _ => a24

/-- Assign to the variable of one of F0 to F5. -/
def LadderWork.assign (w : LadderWork) (r : RegNum) (v : Nat) : LadderWork :=
  match r.toNat with
  | 0 => { w with a := v }
  | 1 => { w with b := v }
  | 2 => { w with c := v }
  | 3 => { w with d := v }
  | 4 => { w with e := v }
  | 5 => { w with f := v }
  | _ => w

theorem LadderWork.reg_numeral (w : LadderWork) : w.reg 0 = w.a ∧ w.reg 1 = w.b ∧ w.reg 2 = w.c ∧ w.reg 3 = w.d ∧
    w.reg 4 = w.e ∧ w.reg 5 = w.f ∧ w.reg 6 = w.x ∧ w.reg 7 = a24 := ⟨rfl, rfl, rfl, rfl, rfl, rfl, rfl, rfl⟩

theorem LadderWork.assign_numeral (w : LadderWork) (v : Nat) : w.assign 0 v = { w with a := v } ∧
    w.assign 1 v = { w with b := v } ∧ w.assign 2 v = { w with c := v } ∧ w.assign 3 v = { w with d := v } ∧
    w.assign 4 v = { w with e := v } ∧ w.assign 5 v = { w with f := v } := ⟨rfl, rfl, rfl, rfl, rfl, rfl⟩

/-- The variables of F0 to F5 are apart from one another and from the base and the constant. -/
theorem LadderWork.reg_assign (w : LadderWork) {r : RegNum} (hr : r.toNat < 6) (v : Nat) (q : RegNum) :
    (w.assign r v).reg q = if q = r then v else w.reg q := by
  have hqr : q = r ↔ q.toNat = r.toNat := BitVec.toNat_inj.symm
  simp only [hqr]
  unfold LadderWork.assign LadderWork.reg
  generalize r.toNat = m at hr ⊢
  generalize q.toNat = n
  interval_cases m <;> split <;> simp_all

/-- What `commitOf` does to the registers, done to the ladder's variables: `x` and `y` are the operands, `k` SCALAR. -/
def assignResult (i : Instr) (k : Reg256) (x y : Nat) (w : LadderWork) : LadderWork :=
  match i with
  | .fadd rd _ _ => w.assign rd (fieldAdd x y)
  | .fsub rd _ _ => w.assign rd (fieldSub x y)
  | .fmul rd _ _ => w.assign rd (fieldMul x y)
  | .fsqr rd _ => w.assign rd (fieldSqr x)
  | .finv rd _ => w.assign rd (fieldInv x)
  | .fcswap rs1 rs2 j =>
    (w.assign rs1 (cswap (k.getLsbD j.toNat) (x, y)).1).assign rs2 (cswap (k.getLsbD j.toNat) (x, y)).2
  | .ladder rd _ => w.assign rd (ladderValue k x)

/-- A command as an assignment to the ladder's variables. -/
def ladderAssign (k : Reg256) (w : LadderWork) (i : Instr) : LadderWork :=
  assignResult i k (w.reg i.rs1) (w.reg i.rs2) w

/-- The two swaps around the step (R79, R81), which LSTEP performs on unreduced registers. -/
def lstepSwaps (j : BitVec 8) : List Instr := [.fcswap 0 1 j, .fcswap 2 3 j]

/-- The 18 commands of the statements of R82. -/
def lstepStatements : List Instr :=
  [.fadd 4 0 2, .fsub 0 0 2, .fadd 2 1 3, .fsub 1 1 3, .fsqr 3 4, .fsqr 5 0, .fmul 0 2 0, .fmul 2 1 4, .fadd 4 0 2,
    .fsub 0 0 2, .fsqr 1 0, .fsub 2 3 5, .fmul 0 2 7, .fadd 0 0 3, .fmul 2 2 0, .fmul 0 3 5, .fmul 3 1 6, .fsqr 1 4]

theorem lstepCommands_eq (j : BitVec 8) : lstepCommands j = lstepSwaps j ++ (lstepStatements ++ lstepSwaps j) := rfl

theorem foldl_ladderAssign_swaps (k : Reg256) (w : LadderWork) (j : BitVec 8) :
    (lstepSwaps j).foldl (ladderAssign k) w = ladderSwap (k.getLsbD j.toNat) w := rfl

theorem foldl_ladderAssign_statements (k : Reg256) (w : LadderWork) :
    lstepStatements.foldl (ladderAssign k) w = ladderStep w := by
  simp only [lstepStatements, List.foldl, ladderAssign, assignResult, Instr.rs1, Instr.rs2,
    LadderWork.reg_numeral, LadderWork.assign_numeral, ladderStep]

/-- The 22 assignments of LSTEP are one pass of the loop of R79: swap, the statements of R82 in order, swap back. -/
theorem foldl_ladderAssign_lstep (k : Reg256) (w : LadderWork) (j : BitVec 8) :
    (lstepCommands j).foldl (ladderAssign k) w = ladderPass k w j.toNat := by
  rw [lstepCommands_eq, List.foldl_append, List.foldl_append, foldl_ladderAssign_swaps, foldl_ladderAssign_statements,
    foldl_ladderAssign_swaps]
  rfl

/-! ### The registers hold the variables (R89(a)) -/

/-- F0 to F7 hold the ladder's variables, the base and the curve constant. -/
def State.Holds (s : State) (w : LadderWork) : Prop := ∀ r : RegNum, r.toNat < 8 → (s.readFR r).toNat = w.reg r

theorem State.Holds.writeFR {s : State} {w : LadderWork} (h : s.Holds w) {r : RegNum} (hr : r.toNat < 6) (v : Reg256) :
    (s.writeFR r v).Holds (w.assign r v.toNat) := by
  intro q hq
  rw [State.readFR_writeFR, LadderWork.reg_assign w hr]
  split
  · rfl
  · exact h q hq

theorem State.Holds.writeField {s : State} {w : LadderWork} (h : s.Holds w) {r : RegNum} (hr : r.toNat < 6) {v : Nat}
    (hv : v < p) : (s.writeField r v).Holds (w.assign r v) := by
  simpa only [State.writeField, toNat_ofNat_of_lt hv] using h.writeFR hr (BitVec.ofNat 256 v)

theorem toNat_cswap_fst (r : Bool) (x y : Reg256) : (cswap r (x, y)).1.toNat = (cswap r (x.toNat, y.toNat)).1 := by
  cases r <;> rfl

theorem toNat_cswap_snd (r : Bool) (x y : Reg256) : (cswap r (x, y)).2.toNat = (cswap r (x.toNat, y.toNat)).2 := by
  cases r <;> rfl

/-- The command reads F0 to F7 and writes F0 to F5. -/
def OnLadderRegs (i : Instr) : Prop :=
  i.rs1.toNat < 8 ∧ i.rs2.toNat < 8 ∧ ∀ r ∈ destinations i, r.toNat < 6

/-- A command acts on the registers as its assignment does on the variables. -/
theorem State.Holds.after {s : State} {w : LadderWork} (h : s.Holds w) {i : Instr} (hi : OnLadderRegs i) :
    (s.after i).Holds (ladderAssign s.scalar w i) := by
  obtain ⟨h1, h2, hd⟩ := hi
  rw [ladderAssign, ← h i.rs1 h1, ← h i.rs2 h2]
  show (commitOf i (s.capture i) s).Holds _
  cases i with
  | fadd rd _ _ => exact h.writeField (hd rd List.mem_cons_self) (fieldAdd_lt _ _)
  | fsub rd _ _ => exact h.writeField (hd rd List.mem_cons_self) (fieldSub_lt _ _)
  | fmul rd _ _ => exact h.writeField (hd rd List.mem_cons_self) (fieldMul_lt _ _)
  | fsqr rd _ => exact h.writeField (hd rd List.mem_cons_self) (fieldSqr_lt _)
  | finv rd _ => exact h.writeField (hd rd List.mem_cons_self) (fieldInv_lt _)
  | fcswap rs1 rs2 k =>
    simp only [assignResult, ← toNat_cswap_fst, ← toNat_cswap_snd]
    exact (h.writeFR (hd rs1 (by simp [destinations])) _).writeFR (hd rs2 (by simp [destinations])) _
  | ladder rd _ => exact h.writeField (hd rd List.mem_cons_self) (ladderValue_lt _ _)

theorem State.Holds.foldl {s : State} {w : LadderWork} (h : s.Holds w) {is : List Instr}
    (his : ∀ i ∈ is, OnLadderRegs i) : (is.foldl State.after s).Holds (is.foldl (ladderAssign s.scalar) w) := by
  induction is generalizing s w with
  | nil => exact h
  | cons i is ih =>
    obtain ⟨hi, his⟩ := List.forall_mem_cons.mp his
    have hsc : (s.after i).scalar = s.scalar := (completesWriting_commitOf i (s.capture i) s).scalar
    have hrest := ih (h.after hi) his
    rw [hsc] at hrest
    exact hrest

theorem lstepCommands_onLadderRegs (k : BitVec 8) : ∀ i ∈ lstepCommands k, OnLadderRegs i := by
  simp [lstepCommands, OnLadderRegs, destinations, Instr.rs1, Instr.rs2]

/-- LSTEP takes registers that hold the ladder's variables to registers that hold them one iteration later (R89(a)). -/
theorem State.Holds.lstep {s : State} {w : LadderWork} (h : s.Holds w) (k : BitVec 8) :
    ((lstepCommands k).foldl State.after s).Holds (ladderPass s.scalar w k.toNat) := by
  rw [← foldl_ladderAssign_lstep]
  exact h.foldl (lstepCommands_onLadderRegs k)

theorem lstepCommands_destinations (k : BitVec 8) {r : RegNum} (hr : r ∈ (lstepCommands k).flatMap destinations) :
    r.toNat < 6 := by
  obtain ⟨i, hi, hri⟩ := List.mem_flatMap.mp hr
  obtain ⟨-, -, hd⟩ := lstepCommands_onLadderRegs k i hi
  exact hd r hri

/-- The ladder's variables as F0 to F6 of a state hold them. -/
def State.ladderVars (s : State) : LadderWork where
  a := (s.readFR 0).toNat
  b := (s.readFR 1).toNat
  c := (s.readFR 2).toNat
  d := (s.readFR 3).toNat
  e := (s.readFR 4).toNat
  f := (s.readFR 5).toNat
  x := (s.readFR 6).toNat
  r := false
  left := 0

theorem State.holds_ladderVars {s : State} (h7 : (s.readFR 7).toNat = a24) : s.Holds s.ladderVars := by
  intro r hr
  obtain ⟨n, rfl⟩ : ∃ n : Fin 8, r = BitVec.ofNat 4 n := ⟨⟨r.toNat, hr⟩, by simp⟩
  fin_cases n
  exacts [rfl, rfl, rfl, rfl, rfl, rfl, rfl, h7]

/-- `ladderstep` assigns e and f before it reads them. -/
theorem ladderPass_ignores_ef (k : Reg256) (w : LadderWork) (i e f : Nat) :
    ladderPass k { w with e := e, f := f } i = ladderPass k w i := rfl

/-- Settles O50: the frame of the 22 commands, and the ladder's variables read off F0 to F5. -/
theorem lstepIsOneLadderIteration : Obligations.LstepIsOneLadderIteration := by
  unfold Obligations.LstepIsOneLadderIteration
  intro k s hn h7
  have hframe := commandsFrame_foldl hn (lstepCommands k)
  have hholds := (State.holds_ladderVars h7).lstep k
  refine ⟨_, runCommands_idle hn _, hframe.inflight.trans hn, hframe.scalar, hframe.err, hframe.ecode,
    fun r hr => hframe.others r fun hmem => ?_, ?_⟩
  · exact absurd (lstepCommands_destinations k hmem) (by omega)
  · rw [← ladderPass_ignores_ef _ _ _ 0 0] at hholds
    exact ⟨hholds 0 (by decide), hholds 1 (by decide), hholds 2 (by decide), hholds 3 (by decide), hholds 4 (by decide),
      hholds 5 (by decide)⟩

end Sys2Proof.Machine
end

/-! Proofs of the family 30_encoding: the other pseudo-instructions and WAIT (R63, R114). -/

section
namespace Sys2Proof.Machine

open Sys2Proof.Config

/-! ### The power and the inverse mod p (R70 to R72) -/

/-- `n` iterations multiply `res` by the powers of `base` that the next `n` bits of the exponent name. -/
theorem cast_powRun_res (y n : Nat) (w : PowWork) :
    ((powRun y n w).res : ZMod p) = w.res * (w.base : ZMod p) ^ (y / 2 ^ w.bit % 2 ^ n) := by
  induction n generalizing w with
  | zero => simp [powRun, Nat.mod_one]
  | succ n ih =>
    have hdigit : y / 2 ^ w.bit % 2 ^ (n + 1) = y / 2 ^ w.bit % 2 + 2 * (y / 2 ^ (w.bit + 1) % 2 ^ n) := by
      rw [pow_succ', Nat.mod_mul, Nat.div_div_eq_div_mul, ← pow_succ]
    have hres : ((powIter y w).res : ZMod p) = w.res * (w.base : ZMod p) ^ (y / 2 ^ w.bit % 2) := by
      rcases Nat.mod_two_eq_zero_or_one (y / 2 ^ w.bit) with h | h <;>
        simp [powIter, Nat.testBit_eq_decide_div_mod_eq, h]
    have hbase : ((powIter y w).base : ZMod p) = (w.base : ZMod p) ^ 2 := by simp [powIter, pow_two]
    have hbit : (powIter y w).bit = w.bit + 1 := rfl
    rw [powRun_succ, ih, hres, hbase, hbit, hdigit, pow_add _ (y / 2 ^ w.bit % 2), pow_mul, mul_assoc]

theorem lt_two_pow_bitLength (y : Nat) : y < 2 ^ bitLength y := by
  unfold bitLength
  split
  · next h => simp [h]
  · exact Nat.lt_log2_self

theorem cast_fieldPow (x y : Nat) : (fieldPow x y : ZMod p) = (x : ZMod p) ^ y := by
  rw [fieldPow, cast_powRun_res]
  simp [powInit, Nat.mod_eq_of_lt (lt_two_pow_bitLength y)]

theorem cast_eq_zero_iff (x : Nat) : (x : ZMod p) = 0 ↔ x % p = 0 := by
  rw [ZMod.natCast_eq_zero_iff, Nat.dvd_iff_mod_eq_zero]

/-- FINV's value is the inverse of a nonzero residue (R71): Fermat's little theorem. -/
theorem cast_fieldInv_mul {x : Nat} (hx : x % p ≠ 0) : (fieldInv x : ZMod p) * x = 1 := by
  have : Fact p.Prime := ⟨Laws.prime_p⟩
  have hp : p - 2 + 1 = p - 1 := by decide
  rw [fieldInv, cast_fieldPow, ← pow_succ, hp]
  exact ZMod.pow_card_sub_one_eq_one fun h => hx ((cast_eq_zero_iff x).mp h)

/-- FINV's value for a zero residue is 0 (R72). -/
theorem fieldInv_of_mod_eq_zero {x : Nat} (hx : x % p = 0) : fieldInv x = 0 := by
  refine eq_of_cast_eq (fieldInv_lt x) p_pos ?_
  rw [fieldInv, cast_fieldPow, (cast_eq_zero_iff x).mpr hx, zero_pow (by decide), Nat.cast_zero]

/-! ### FMOV, FRED, FNEG and FDIV (R63) -/

theorem toNat_readFR_writeField (s : State) (r : RegNum) {v : Nat} (h : v < p) :
    ((s.writeField r v).readFR r).toNat = v := by
  rw [State.writeField, State.readFR_writeFR_same, toNat_ofNat_of_lt h]

theorem fieldAdd_zero {z : Nat} (x : Nat) (hz : z % p = 0) : fieldAdd x z = x % p := by
  rw [fieldAdd, Nat.add_mod, hz, Nat.add_zero, Nat.mod_mod]

theorem fieldSub_add_cancel {z : Nat} (x : Nat) (hz : z % p = 0) : (fieldSub z x + x) % p = 0 := by
  rw [← cast_eq_zero_iff]
  simp [(cast_eq_zero_iff z).mpr hz]

/-- `a / b` mod p. -/
theorem fieldMul_fieldInv_mul {b : Nat} (a : Nat) (hb : b % p ≠ 0) : fieldMul a (fieldInv b) * b % p = a % p := by
  rw [← ZMod.natCast_eq_natCast_iff']
  push_cast
  rw [cast_fieldMul, mul_assoc, cast_fieldInv_mul hb, mul_one]

/-- Settles O52: each expansion run to its end, and the arithmetic of its result. -/
theorem pseudoInstructionsComputeWhatTheyName : Obligations.PseudoInstructionsComputeWhatTheyName := by
  unfold Obligations.PseudoInstructionsComputeWhatTheyName
  intro P d a b z s hn
  have hfmov (hz : (s.readFR z).toNat % p = 0) : ((s.after (.fadd d a z)).readFR d).toNat = (s.readFR a).toNat % p :=
    (toNat_readFR_writeField s d (fieldAdd_lt _ _)).trans (fieldAdd_zero _ hz)
  refine ⟨fun hz => ⟨⟨_, runCommands_idle hn _, hfmov hz⟩, ⟨_, runCommands_idle hn _, hfmov hz⟩,
    ⟨_, runCommands_idle hn _, ?_⟩⟩, fun hza => ⟨_, runCommands_idle hn _, ?_⟩⟩
  · have hd : ((s.after (.fsub d z a)).readFR d).toNat = fieldSub (s.readFR z).toNat (s.readFR a).toNat :=
      toNat_readFR_writeField s d (fieldSub_lt _ _)
    refine ⟨?_, ?_⟩
    · exact (congrArg (fun v => (v + _) % p) hd).trans (fieldSub_add_cancel _ hz)
    · exact hd.trans_lt (fieldSub_lt _ _)
  · have hinv : ((s.after (.finv z b)).readFR z).toNat = fieldInv (s.readFR b).toNat :=
      toNat_readFR_writeField s z (fieldInv_lt _)
    have ha : (s.after (.finv z b)).readFR a = s.readFR a := State.readFR_writeFR_other s (Ne.symm hza) _
    have hd : (((s.after (.finv z b)).after (.fmul d a z)).readFR d).toNat =
        fieldMul (s.readFR a).toNat (fieldInv (s.readFR b).toNat) := by
      rw [← hinv, ← ha]
      exact toNat_readFR_writeField _ d (fieldMul_lt _ _)
    refine ⟨fun hb => ?_, fun hb => ?_⟩
    · exact (congrArg (fun v => v * _ % p) hd).trans (fieldMul_fieldInv_mul _ hb)
    · exact hd.trans (by rw [fieldInv_of_mod_eq_zero hb]; simp [fieldMul])

/-! ### WAIT (R63, R114) -/

theorem windowRead_0x004 (s : State) : windowRead s 0x004 = statusWord s := windowRead_status s (by decide)

/-- The block after `n` polls: they add STATUS to the host's reads and do nothing else (R41). -/
theorem runSteps_polls {n : Nat} {s : State} {rest : List Event} (hr : s.resetDone = true)
    (he : s.events = List.replicate n poll ++ rest) :
    runSteps n s = .next { s with events := rest, reads := List.replicate n (statusWord s) ++ s.reads } := by
  induction n generalizing s with
  | zero =>
    obtain rfl : s.events = rest := he
    rfl
  | succ n ih =>
    have hpoll : step s = .next { s with events := List.replicate n poll ++ rest, reads := statusWord s :: s.reads } := by
      rw [step_memRead (off := 0x004) hr he, windowRead_0x004]
      rfl
    rw [runSteps_succ hpoll, ih (by exact hr) rfl, List.replicate_succ', List.append_assoc]
    rfl

/-- What is to happen and what was read are no part of a completion. -/
theorem commitOf_surroundings (i : Instr) (v : Snapshot) (s : State) (es : List Event) (rs : List Word) :
    commitOf i v { s with events := es, reads := rs } = { commitOf i v s with events := es, reads := rs } := by
  cases i <;> rfl

/-- The block after the completion of `f`. -/
def State.completed (s : State) (f : InFlight) : State := (commitOf f.instr f.snap s).retire

/-- The block after a WAIT that polls `n` times before the completion of `f` and once after it. -/
def State.waited (s : State) (f : InFlight) (n : Nat) (rest : List Event) : State :=
  { s.completed f with
    events := rest
    reads := statusWord (s.completed f) :: (List.replicate n (statusWord s) ++ s.reads) }

theorem runSteps_wait {n : Nat} {s : State} {f : InFlight} {rest : List Event} (hr : s.resetDone = true)
    (hf : s.inflight = some f) (he : s.events = waitEvents true n ++ rest) :
    runSteps (n + 2) s = .next (s.waited f n rest) := by
  have hevents : s.events = List.replicate n poll ++ (.coreComplete :: poll :: rest) := by simpa [waitEvents] using he
  let u : State := { s with events := .coreComplete :: poll :: rest, reads := List.replicate n (statusWord s) ++ s.reads }
  let c : State := { s.completed f with events := poll :: rest, reads := u.reads }
  have hcomplete : step u = .next c := by
    have hcommit := commitOf_surroundings f.instr f.snap s (poll :: rest) u.reads
    calc step u = exec f.instr { u with events := poll :: rest } := step_coreComplete (s := u) hr hf rfl
      _ = .next (commitOf f.instr f.snap { u with events := poll :: rest }).retire := exec_of_canRun (.inr hf)
      _ = .next c := congrArg (fun t : State => Host.Outcome.next t.retire) hcommit
  have hrc : c.resetDone = true := (completesWriting_commitOf f.instr f.snap s).resetDone.trans hr
  have hpoll : step c = .next (s.waited f n rest) := by
    rw [step_memRead (off := 0x004) hrc rfl, windowRead_0x004]
    rfl
  rw [runSteps_add (runSteps_polls hr hevents), runSteps_succ hcomplete, runSteps_succ hpoll]
  rfl

/-- BUSY is bit 0 of STATUS (R41). -/
theorem getLsbD_statusWord_zero (s : State) : (statusWord s).getLsbD 0 = s.busy := by
  rw [statusWord, BitVec.getLsbD_append]
  cases s.busy <;> rfl

/-- Settles O53: the run of a WAIT, which ends with the completion and a poll of the block it leaves. -/
theorem waitEndsWithAnIdleBlock : Obligations.WaitEndsWithAnIdleBlock := by
  unfold Obligations.WaitEndsWithAnIdleBlock
  intro n rest s hr hb he
  obtain ⟨f, hf⟩ := s.busy_eq_true.mp hb
  have hidle : (s.waited f n rest).busy = false := (State.busy_eq_false _).mpr rfl
  exact ⟨_, runSteps_wait hr hf he, hidle, rfl, rfl, (getLsbD_statusWord_zero s).trans hb,
    (getLsbD_statusWord_zero _).trans hidle⟩

/-! ### A pseudo-instruction as the host performs it (R63, R114) -/

/-- The two states agree in the registers, SCALAR, the error record and what is in flight. -/
structure SameBlock (s t : State) : Prop where
  fr : s.fr = t.fr
  scalar : s.scalar = t.scalar
  err : s.err = t.err
  ecode : s.ecode = t.ecode
  inflight : s.inflight = t.inflight

/-- A command leaves states that agree in the same way. -/
theorem SameBlock.after {s t : State} (h : SameBlock s t) (i : Instr) : SameBlock (s.after i) (t.after i) := by
  have hs := completesWriting_commitOf i (s.capture i) s
  have ht := completesWriting_commitOf i (t.capture i) t
  refine ⟨?_, hs.scalar.trans (h.scalar.trans ht.scalar.symm), hs.err.trans (h.err.trans ht.err.symm),
    hs.ecode.trans (h.ecode.trans ht.ecode.symm), rfl⟩
  show (commitOf i (s.capture i) s).fr = (commitOf i (t.capture i) t).fr
  rw [State.capture_congr h.fr h.scalar i]
  exact commitOf_fr_congr i _ h.fr

theorem SameBlock.foldl_after {s t : State} (h : SameBlock s t) (is : List Instr) :
    SameBlock (is.foldl State.after s) (is.foldl State.after t) := by
  induction is generalizing s t with
  | nil => exact h
  | cons i is ih => exact ih (h.after i)

theorem SameBlock.trans {s t u : State} (h : SameBlock s t) (h' : SameBlock t u) : SameBlock s u :=
  ⟨h.fr.trans h'.fr, h.scalar.trans h'.scalar, h.err.trans h'.err, h.ecode.trans h'.ecode, h.inflight.trans h'.inflight⟩

theorem length_commandEvents (n : Nat) (i : Instr) : (commandEvents n i).length = n + 3 := by
  simp [commandEvents, waitEvents]

/-- A command's write and its WAIT do what the command does on an idle block, however often the WAIT polls. -/
theorem runSteps_commandEvents {n : Nat} {i : Instr} {s : State} {rest : List Event} (hr : s.resetDone = true)
    (hn : s.inflight = none) (he : s.events = commandEvents n i ++ rest) :
    ∃ t, runSteps (commandEvents n i).length s = .next t ∧ SameBlock t (s.after i) ∧ t.resetDone = true ∧
      t.events = rest := by
  let u : State := State.issue { s with events := waitEvents true n ++ rest } i
  have hissue : step s = .next u := step_issue hr hn he
  have hwait := runSteps_wait (s := u) (f := ⟨i, s.capture i⟩) hr rfl rfl
  have hcu := completesWriting_commitOf i (s.capture i) u
  have hcs := completesWriting_commitOf i (s.capture i) s
  refine ⟨u.waited ⟨i, s.capture i⟩ n rest, ?_,
    ⟨?_, hcu.scalar.trans hcs.scalar.symm, hcu.err.trans hcs.err.symm, hcu.ecode.trans hcs.ecode.symm, rfl⟩, hcu.resetDone.trans hr, rfl⟩
  · rw [length_commandEvents, runSteps_succ hissue, hwait]
  · exact commitOf_fr_congr i (s.capture i) (s := s) (t := u) rfl

/-- The events of commands, each with a number of polls of its own, run to what the commands leave. -/
theorem runSteps_commandList {cs : List (Instr × Nat)} {s : State} {rest : List Event} (hr : s.resetDone = true)
    (hn : s.inflight = none) (he : s.events = (cs.flatMap fun c => commandEvents c.2 c.1) ++ rest) :
    ∃ t, runSteps (cs.flatMap fun c => commandEvents c.2 c.1).length s = .next t ∧
      SameBlock t ((cs.map Prod.fst).foldl State.after s) ∧ t.events = rest := by
  induction cs generalizing s with
  | nil => exact ⟨s, rfl, ⟨rfl, rfl, rfl, rfl, rfl⟩, he⟩
  | cons c cs ih =>
    rw [List.flatMap_cons, List.append_assoc] at he
    obtain ⟨u, hu, hsame, hru, heu⟩ := runSteps_commandEvents hr hn he
    obtain ⟨t, ht, hsame', het⟩ := ih hru hsame.inflight heu
    refine ⟨t, ?_, hsame'.trans (hsame.foldl_after _), het⟩
    rw [List.flatMap_cons, List.length_append, runSteps_add hu, ht]

/-- The events of a pseudo-instruction other than WAIT, which has no command. -/
theorem pseudoEvents_eq {q : Pseudo} (hq : q ≠ .wait) (busy : Bool) (polls : Nat → Nat) :
    pseudoEvents busy polls q =
      ((expand q).zipIdx.map fun c => (c.1, polls c.2)).flatMap fun c => commandEvents c.2 c.1 := by
  rw [List.flatMap_map]
  cases q with
  | wait => exact absurd rfl hq
  | _ => rfl

/-- Settles O57: the commands of the expansion with the polls of their WAITs, and a WAIT by itself is one poll. -/
theorem pseudoEventsRunTheExpansion : Obligations.PseudoEventsRunTheExpansion := by
  unfold Obligations.PseudoEventsRunTheExpansion
  intro q polls rest s hr hb he
  have hn : s.inflight = none := s.busy_eq_false.mp hb
  by_cases hq : q = .wait
  · subst hq
    exact ⟨_, s, runSteps_polls (n := 1) hr he, rfl, rfl, rfl, rfl, rfl, hb, rfl⟩
  · rw [pseudoEvents_eq hq] at he ⊢
    obtain ⟨t, hrun, hsame, hevents⟩ := runSteps_commandList hr hn he
    have hidle := (commandsFrame_foldl hn (expand q)).inflight.trans hn
    have hfst : (((expand q).zipIdx.map fun c => (c.1, polls c.2)).map Prod.fst) = expand q := by
      rw [List.map_map]
      exact List.zipIdx_map_fst 0 (expand q)
    rw [hfst] at hsame
    exact ⟨t, _, hrun, runCommands_idle hn (expand q), hsame.fr, hsame.scalar, hsame.err, hsame.ecode,
      t.busy_eq_false.mpr (hsame.inflight.trans hidle), hevents⟩

end Sys2Proof.Machine
end

/-! Proofs of the family 40_field_arith: exponentiation, the inverse and the field commands (R65 to R74). -/

section
namespace Sys2Proof.Machine

open Sys2Proof.Config

/-! ### The power and the inverse as natural numbers (R70 to R72) -/

theorem fieldPow_lt (x y : Nat) : fieldPow x y < p := powRun_res_lt y (bitLength y) (w := powInit x) Laws.prime_p.one_lt

theorem fieldPow_eq_pow_mod (x y : Nat) : fieldPow x y = x ^ y % p :=
  eq_of_cast_eq (fieldPow_lt x y) (Nat.mod_lt _ p_pos) (by simp [cast_fieldPow])

/-- Settles O23: the loop's value is reduced and is the power mod p. -/
theorem powComputesThePower : Obligations.PowComputesThePower := by
  unfold Obligations.PowComputesThePower
  exact fun x y => ⟨fieldPow_eq_pow_mod x y, rfl⟩

/-- The exponent of FINV (R71). -/
theorem p_sub_two : p - 2 = 2 ^ 255 - 21 := by decide

theorem fieldInv_eq_fieldPow (x : Nat) : fieldInv x = fieldPow x (2 ^ 255 - 21) := by
  rw [fieldInv, p_sub_two]

theorem mul_mod_eq_one_iff {x y : Nat} : x * y % p = 1 ↔ (x : ZMod p) * y = 1 := by
  have h := ZMod.natCast_eq_natCast_iff' (x * y) 1 p
  rw [Nat.mod_eq_of_lt Laws.prime_p.one_lt] at h
  simpa using h.symm

theorem mul_fieldInv_mod {x : Nat} (hx : x % p ≠ 0) : x * fieldInv x % p = 1 := by
  rw [mul_mod_eq_one_iff, mul_comm, cast_fieldInv_mul hx]

theorem fieldInv_pos {x : Nat} (hx : x % p ≠ 0) : 1 ≤ fieldInv x := by
  have h := mul_fieldInv_mod hx
  refine Nat.one_le_iff_ne_zero.mpr fun h0 => ?_
  simp [h0] at h

/-- An inverse mod p in `[0, p)` is the one FINV writes. -/
theorem eq_fieldInv_of_mul_mod {x z : Nat} (hx : x % p ≠ 0) (hz : z < p) (h : x * z % p = 1) : z = fieldInv x :=
  (eq_of_cast_eq (fieldInv_lt x) hz (left_inv_eq_right_inv (cast_fieldInv_mul hx) (mul_mod_eq_one_iff.mp h))).symm

/-- The multiples of p that 256 bits hold (R72). -/
theorem mod_p_eq_zero_iff {x : Nat} (hx : x < 2 ^ 256) : x % p = 0 ↔ x = 0 ∨ x = p ∨ x = 2 * p := by
  unfold p
  omega

/-! ### The field commands (R66 to R72) -/

/-- A command whose result is one field value completes with it in its destination. -/
theorem exec_writesField {i : Instr} {s : State} {rd : RegNum} {v : Nat} (hs : s.Ready i) (hd : destinations i = [rd])
    (hi : commitOf i (s.capture i) s = s.writeField rd v) (hv : v < p) :
    ∃ t, exec i s = .next t ∧ CompletesWriting [rd] s t ∧ (t.readFR rd).toNat = v := by
  refine ⟨_, exec_of_ready hs, hd ▸ completesWriting_commitOf i _ s, ?_⟩
  rw [State.readFR_retire, hi, toNat_readFR_writeField s rd hv]

theorem exec_finv {rd rs1 : RegNum} {s : State} (hs : s.Ready (.finv rd rs1)) :
    ∃ t, exec (.finv rd rs1) s = .next t ∧ CompletesWriting [rd] s t ∧
      (t.readFR rd).toNat = fieldInv (s.readFR rs1).toNat :=
  exec_writesField hs rfl rfl (fieldInv_lt _)

/-- Settles O24: FINV's value is the power, hence the inverse; the counts are facts of the exponent. -/
theorem finvInvertsModP : Obligations.FinvInvertsModP := by
  unfold Obligations.FinvInvertsModP
  refine ⟨fun rd rs1 s hs => ?_, by decide, by decide +kernel, fun x n => ?_⟩
  · obtain ⟨t, he, hc, hv⟩ := exec_finv hs
    refine ⟨rfl, rfl, t, he, hc, ?_⟩
    intro x y
    have hy : y = fieldInv x := hv
    rw [hy]
    refine ⟨fieldInv_eq_fieldPow x, ?_, fieldInv_of_mod_eq_zero, fun hx => ?_⟩
    · rw [fieldInv_eq_fieldPow]
      exact fieldPow_eq_pow_mod x _
    · exact ⟨fieldInv_pos hx, fieldInv_lt x, mul_fieldInv_mod hx, fun z _ hz h => eq_fieldInv_of_mul_mod hx hz h⟩
  · exact (powRun_bit _ n (powInit x)).trans (Nat.zero_add n)

/-- Settles O33: equal residues have equal results in the integers mod p, and every result is reduced. -/
theorem resultsDependOnOperandsModP : Obligations.ResultsDependOnOperandsModP := by
  unfold Obligations.ResultsDependOnOperandsModP
  intro x x' y y' hx hy
  have hxc : (x : ZMod p) = x' := (ZMod.natCast_eq_natCast_iff' x x' p).mpr hx
  have hyc : (y : ZMod p) = y' := (ZMod.natCast_eq_natCast_iff' y y' p).mpr hy
  refine ⟨eq_of_cast_eq (fieldAdd_lt _ _) (fieldAdd_lt _ _) ?_, eq_of_cast_eq (fieldSub_lt _ _) (fieldSub_lt _ _) ?_,
    eq_of_cast_eq (fieldMul_lt _ _) (fieldMul_lt _ _) ?_, eq_of_cast_eq (fieldSqr_lt _) (fieldSqr_lt _) ?_,
    eq_of_cast_eq (fieldInv_lt _) (fieldInv_lt _) ?_⟩
  · simp [hxc, hyc]
  · simp [hxc, hyc]
  · simp [hxc, hyc]
  · simp [hxc]
  · simp [fieldInv, cast_fieldPow, hxc]

/-- Settles O19: the sum is reduced, so it fits the register it is written to. -/
theorem faddAddsModP : Obligations.FaddAddsModP := by
  unfold Obligations.FaddAddsModP
  exact fun _ _ _ _ hs => ⟨rfl, rfl, exec_writesField hs rfl rfl (fieldAdd_lt _ _)⟩

/-- Settles O20: the difference in the integers, reduced into `[0, p)`. -/
theorem fsubSubtractsModP : Obligations.FsubSubtractsModP := by
  unfold Obligations.FsubSubtractsModP
  intro rd rs1 rs2 s hs
  obtain ⟨t, he, hc, hv⟩ := exec_writesField hs rfl rfl (fieldSub_lt (s.readFR rs1).toNat (s.readFR rs2).toNat)
  exact ⟨rfl, rfl, t, he, hc, (congrArg Nat.cast hv).trans (fieldSub_cast_int _ _)⟩

/-- Settles O21: the product is reduced, so it fits the register it is written to. -/
theorem fmulMultipliesModP : Obligations.FmulMultipliesModP := by
  unfold Obligations.FmulMultipliesModP
  exact fun _ _ _ _ hs => ⟨rfl, rfl, exec_writesField hs rfl rfl (fieldMul_lt _ _)⟩

/-- Settles O22: the square is reduced, so it fits the register it is written to. -/
theorem fsqrSquaresModP : Obligations.FsqrSquaresModP := by
  unfold Obligations.FsqrSquaresModP
  exact fun _ _ _ hs => ⟨rfl, rfl, exec_writesField hs rfl rfl (fieldSqr_lt _)⟩

/-- Settles O25: the multiples of p below 2^256, and the frame of a completion, which holds ERR and ECODE. -/
theorem finvOfZeroIsZero : Obligations.FinvOfZeroIsZero := by
  unfold Obligations.FinvOfZeroIsZero
  intro rd rs1 s hs
  refine ⟨mod_p_eq_zero_iff (s.readFR rs1).isLt, fun h0 => ?_⟩
  obtain ⟨t, he, hc, hv⟩ := exec_finv hs
  exact ⟨t, he, BitVec.eq_of_toNat_eq (hv.trans (fieldInv_of_mod_eq_zero h0)), hc.err, hc.ecode⟩

end Sys2Proof.Machine
end

/-! Proofs of the family 41_ladder: the conditional swap, the ladder and its host-driven form (R76 to R89). -/

section
namespace Sys2Proof.Machine

open Sys2Proof.Config

/-! ### Conditional swap (R76, R77) -/

/-- Settles O26: the mask is all ones or zero, and `x ^^^ (x ^^^ y) = y`. -/
theorem maskAndBlendIsTheSwap : Obligations.MaskAndBlendIsTheSwap := by
  unfold Obligations.MaskAndBlendIsTheSwap
  intro r x y
  refine ⟨?_, rfl⟩
  cases r with
  | false => simp [cswapMask]
  | true =>
    have hx : x ^^^ (x ^^^ y) = y := by rw [← BitVec.xor_assoc, BitVec.xor_self, BitVec.zero_xor]
    have hy : y ^^^ (x ^^^ y) = x := by rw [BitVec.xor_comm x y, ← BitVec.xor_assoc, BitVec.xor_self, BitVec.zero_xor]
    simp only [cswapMask, if_true, BitVec.allOnes_and, hx, hy]

/-- The pseudocode of R77 after the two writes, the second of which wins when the registers are one. -/
theorem readFR_after_fcswap (rs1 rs2 : RegNum) (k : BitVec 8) (s : State) :
    ((s.after (.fcswap rs1 rs2 k)).readFR rs1, (s.after (.fcswap rs1 rs2 k)).readFR rs2) =
      cswap (s.scalar.getLsbD k.toNat) (s.readFR rs1, s.readFR rs2) := by
  have hbit : (s.capture (.fcswap rs1 rs2 k)).scalarBit k = s.scalar.getLsbD k.toNat := rfl
  have hx : (s.capture (.fcswap rs1 rs2 k)).x = s.readFR rs1 := rfl
  have hy : (s.capture (.fcswap rs1 rs2 k)).y = s.readFR rs2 := rfl
  simp only [State.after, State.readFR_retire, commitOf, State.readFR_writeFR, hbit, hx, hy]
  by_cases h : rs1 = rs2
  · subst h
    cases s.scalar.getLsbD k.toNat <;> simp [cswap]
  · simp [h]

/-- Settles O27: `cswap` for either value of the bit. -/
theorem fcswapSwapsByAScalarBit : Obligations.FcswapSwapsByAScalarBit := by
  unfold Obligations.FcswapSwapsByAScalarBit
  intro rs1 rs2 k s hs
  have hswap := readFR_after_fcswap rs1 rs2 k s
  exact ⟨rfl, rfl, s.after (.fcswap rs1 rs2 k), exec_of_ready hs, completesWriting_commitOf (.fcswap rs1 rs2 k) _ s,
    fun hk => Prod.mk.inj (hswap.trans (congrArg (cswap · _) hk)),
    fun hk => Prod.mk.inj (hswap.trans (congrArg (cswap · _) hk))⟩

/-! ### The ladder step in the integers mod p (R82) -/

theorem cast_ladderStep_a (w : LadderWork) :
    ((ladderStep w).a : ZMod p) = ((w.a : ZMod p) + w.c) ^ 2 * ((w.a : ZMod p) - w.c) ^ 2 := by
  simp [ladderStep, pow_two]

theorem cast_ladderStep_c (w : LadderWork) :
    ((ladderStep w).c : ZMod p) = (((w.a : ZMod p) + w.c) ^ 2 - ((w.a : ZMod p) - w.c) ^ 2) *
      (((w.a : ZMod p) + w.c) ^ 2 + 121665 * (((w.a : ZMod p) + w.c) ^ 2 - ((w.a : ZMod p) - w.c) ^ 2)) := by
  simp only [ladderStep, cast_fieldAdd, cast_fieldSub, cast_fieldMul, cast_fieldSqr, a24, Nat.cast_ofNat]
  ring

theorem cast_ladderStep_b (w : LadderWork) :
    ((ladderStep w).b : ZMod p) =
      (((w.b : ZMod p) - w.d) * ((w.a : ZMod p) + w.c) + ((w.b : ZMod p) + w.d) * ((w.a : ZMod p) - w.c)) ^ 2 := by
  simp only [ladderStep, cast_fieldAdd, cast_fieldSub, cast_fieldMul, cast_fieldSqr]
  ring

theorem cast_ladderStep_d (w : LadderWork) :
    ((ladderStep w).d : ZMod p) = (w.x : ZMod p) *
      (((w.b : ZMod p) - w.d) * ((w.a : ZMod p) + w.c) - ((w.b : ZMod p) + w.d) * ((w.a : ZMod p) - w.c)) ^ 2 := by
  simp only [ladderStep, cast_fieldAdd, cast_fieldSub, cast_fieldMul, cast_fieldSqr]
  ring

/-- Each returned value comes out of a field operation. -/
theorem ladderStep_lt (w : LadderWork) :
    (ladderStep w).a < p ∧ (ladderStep w).b < p ∧ (ladderStep w).c < p ∧ (ladderStep w).d < p :=
  ⟨fieldMul_lt _ _, fieldSqr_lt _, fieldMul_lt _ _, fieldMul_lt _ _⟩

/-- Settles O29: the 18 statements, value by value. -/
theorem ladderStepComputesTheNamedFormulas : Obligations.LadderStepComputesTheNamedFormulas := by
  unfold Obligations.LadderStepComputesTheNamedFormulas
  intro w
  obtain ⟨ha, hb, hc, hd⟩ := ladderStep_lt w
  exact ⟨cast_ladderStep_a w, cast_ladderStep_c w, cast_ladderStep_b w, cast_ladderStep_d w, ha, hb, hc, hd,
    ladderStep_x w⟩

/-! ### The iterations (R80, R86) -/

theorem ladderRun_left (k : Reg256) (n : Nat) (w : LadderWork) : (ladderRun k n w).left = w.left - n := by
  induction n generalizing w with
  | zero => rfl
  | succ n ih => rw [ladderRun_succ, ih, ladderIter_left]; omega

/-- No iteration is left, so none changes anything. -/
theorem ladderRun_of_left_eq_zero (k : Reg256) (n : Nat) {w : LadderWork} (h : w.left = 0) : ladderRun k n w = w := by
  induction n with
  | zero => rfl
  | succ n ih =>
    have hiter : ladderIter k w = w := by simp [ladderIter, h]
    rw [ladderRun_succ, hiter, ih]

theorem ladderRun_add (k : Reg256) (m n : Nat) (w : LadderWork) :
    ladderRun k (m + n) w = ladderRun k n (ladderRun k m w) := by
  induction m generalizing w with
  | zero => rw [Nat.zero_add]; rfl
  | succ m ih => rw [Nat.succ_add, ladderRun_succ, ladderRun_succ, ih]

/-- Settles O31: the count falls by one in each iteration, and a run with nothing left stands still. -/
theorem ladderIterationsIndependentOfData : Obligations.LadderIterationsIndependentOfData := by
  unfold Obligations.LadderIterationsIndependentOfData
  intro k u n
  refine ⟨ladderRun_left k n (ladderInit u), fun hn => ?_⟩
  have hend : (ladderRun k 255 (ladderInit u)).left = 0 := (ladderRun_left k 255 _).trans (Nat.sub_self 255)
  obtain ⟨m, rfl⟩ := Nat.exists_eq_add_of_le hn
  rw [ladderRun_add k 255 m, ladderRun_of_left_eq_zero k m hend]

/-! ### The model's ladder and the loop of R79 -/

/-- The two hold the same a, b, c and d, and the same base mod p: what the loop of R79 goes on from. -/
structure LadderWork.Agrees (v w : LadderWork) : Prop where
  a : v.a = w.a
  b : v.b = w.b
  c : v.c = w.c
  d : v.d = w.d
  x : v.x % p = w.x % p

theorem LadderWork.Agrees.ladderSwap {v w : LadderWork} (h : v.Agrees w) (r : Bool) :
    (ladderSwap r v).Agrees (ladderSwap r w) := by
  obtain ⟨ha, hb, hc, hd, hx⟩ := h
  cases r
  · exact ⟨ha, hb, hc, hd, hx⟩
  · exact ⟨hb, ha, hd, hc, hx⟩

/-- The step reads a, b, c and d, and the base in one product mod p. -/
theorem LadderWork.Agrees.ladderStep {v w : LadderWork} (h : v.Agrees w) : (ladderStep v).Agrees (ladderStep w) := by
  obtain ⟨ha, hb, hc, hd, hx⟩ := h
  have hmul (m : Nat) : fieldMul m v.x = fieldMul m w.x := by
    rw [fieldMul, Nat.mul_mod, hx, ← Nat.mul_mod, fieldMul]
  simp only [Machine.ladderStep, ha, hb, hc, hd, hmul]
  exact ⟨rfl, rfl, rfl, rfl, hx⟩

theorem ladderPass_eq (k : Reg256) (w : LadderWork) (i : Nat) :
    ladderPass k w i = ladderSwap (k.getLsbD i) (ladderStep (ladderSwap (k.getLsbD i) w)) := rfl

theorem LadderWork.Agrees.ladderPass {v w : LadderWork} (h : v.Agrees w) (k : Reg256) (i : Nat) :
    (ladderPass k v i).Agrees (ladderPass k w i) :=
  ((h.ladderSwap _).ladderStep).ladderSwap _

theorem ladderIter_eq (k : Reg256) {w : LadderWork} {i : Nat} (h : w.left = i + 1) :
    ladderIter k w = ladderPass k { w with r := k.getLsbD i, left := i } i := by
  simp only [ladderIter, h]
  rfl

/-- The passes for the bits `n - 1` down to 0, in this order (R79). -/
def ladderPasses (k : Reg256) (n : Nat) (w : LadderWork) : LadderWork := (List.range n).reverse.foldl (ladderPass k) w

theorem ladderPasses_succ (k : Reg256) (n : Nat) (w : LadderWork) :
    ladderPasses k (n + 1) w = ladderPasses k n (ladderPass k w n) := by
  simp [ladderPasses, List.range_succ]

theorem LadderWork.Agrees.ladderPasses {v w : LadderWork} (h : v.Agrees w) (k : Reg256) (n : Nat) :
    (ladderPasses k n v).Agrees (ladderPasses k n w) :=
  List.foldl_rel h fun i _ _ _ hi => hi.ladderPass k i

/-- A run through all iterations left is the loop of R79 over their bits: an iteration is a pass for its bit index, and its
record of the bit and of the index is no part of the pass. -/
theorem ladderRun_agrees (k : Reg256) (n : Nat) {v w : LadderWork} (hn : v.left = n) (h : v.Agrees w) :
    (ladderRun k n v).Agrees (ladderPasses k n w) := by
  induction n generalizing v w with
  | zero => exact h
  | succ n ih =>
    have hrecord : LadderWork.Agrees { v with r := k.getLsbD n, left := n } w := ⟨h.a, h.b, h.c, h.d, h.x⟩
    have hiter : (ladderIter k v).Agrees (ladderPass k w n) := ladderIter_eq k hn ▸ hrecord.ladderPass k n
    rw [ladderRun_succ, ladderPasses_succ]
    exact ih (by simp [hn]) hiter

theorem ladderLoop_eq (k : Reg256) (u : Nat) : ladderLoop k u = ladderPasses k 255 (ladderInit u) := rfl

/-- The value LADDER writes, from the loop of R79 and the final step of R83. -/
theorem ladderValue_eq (k : Reg256) (u : Nat) : ladderValue k u = ladderFinish (ladderLoop k u) := by
  have h := ladderRun_agrees k 255 (v := ladderInit u) (w := ladderInit u) rfl ⟨rfl, rfl, rfl, rfl, rfl⟩
  show fieldMul (ladderRun k 255 (ladderInit u)).a (fieldInv (ladderRun k 255 (ladderInit u)).c) = _
  rw [h.a, h.c]
  rfl

/-- The inverse as FINV's power (R71), and the final step of R83 on it. -/
theorem ladderFinish_eq (w : LadderWork) : ladderFinish w = w.a * (w.c ^ (2 ^ 255 - 21) % p) % p := by
  rw [ladderFinish, fieldInv_eq_fieldPow, fieldPow_eq_pow_mod, fieldMul]

/-- Settles O28: the model's iterations are the loop of R79, and the completion writes their value. -/
theorem ladderFollowsThePseudocode : Obligations.LadderFollowsThePseudocode := by
  unfold Obligations.LadderFollowsThePseudocode
  intro rd rs1 s hs
  obtain ⟨t, he, hc, hv⟩ := exec_writesField hs rfl rfl (ladderValue_lt s.scalar (s.readFR rs1).toNat)
  rw [ladderValue_eq, ladderFinish_eq] at hv
  exact ⟨rfl, rfl, t, he, hc, hv⟩

/-! ### What the ladder reads of its operands (R80, R84, R85) -/

/-- The passes for the bits below `n` read no other bit. -/
theorem ladderPasses_congr {k k' : Reg256} {n : Nat} (h : ∀ i, i < n → k.getLsbD i = k'.getLsbD i) (w : LadderWork) :
    ladderPasses k n w = ladderPasses k' n w := by
  refine List.foldl_ext _ _ w fun v i hi => ?_
  have hin : i < n := List.mem_range.mp (List.mem_reverse.mp hi)
  rw [ladderPass_eq, ladderPass_eq, h i hin]

theorem ladderInit_congr {u u' : Nat} (h : u % p = u' % p) : ladderInit u = ladderInit u' := by
  rw [ladderInit, ladderInit, h]

/-- Settles O30: the loop reads 255 bits, and its start the base mod p. -/
theorem ladderIgnoresBit255AndReducesTheBase : Obligations.LadderIgnoresBit255AndReducesTheBase := by
  unfold Obligations.LadderIgnoresBit255AndReducesTheBase
  intro k k' u u' hk hu
  rw [ladderValue_eq, ladderValue_eq, ladderLoop_eq, ladderLoop_eq, ladderPasses_congr hk, ladderInit_congr hu]

/-! ### The zero results (R87) -/

/-- The final step multiplies by a positive power of c. -/
theorem ladderFinish_eq_zero {w : LadderWork} (h : (w.a : ZMod p) * w.c = 0) : ladderFinish w = 0 := by
  refine eq_of_cast_eq (fieldMul_lt _ _) p_pos ?_
  have hp : p - 2 = (p - 3) + 1 := by decide
  rw [ladderFinish, cast_fieldMul, fieldInv, cast_fieldPow, hp, pow_succ', ← mul_assoc, h, zero_mul, Nat.cast_zero]

/-- Doubling: the new c has the factor `E = 4 a c` (R82). -/
theorem cast_ladderStep_c_eq_zero {w : LadderWork} (h : (w.a : ZMod p) * w.c = 0) : ((ladderStep w).c : ZMod p) = 0 := by
  have hE : ((w.a : ZMod p) + w.c) ^ 2 - ((w.a : ZMod p) - w.c) ^ 2 = 0 := by linear_combination 4 * h
  rw [cast_ladderStep_c, hE, zero_mul]

/-- With a zero base both pairs keep a zero product: the new c and d are 0. -/
structure LadderWork.ZeroBase (w : LadderWork) : Prop where
  x : (w.x : ZMod p) = 0
  ac : (w.a : ZMod p) * w.c = 0
  bd : (w.b : ZMod p) * w.d = 0

theorem LadderWork.ZeroBase.ladderSwap {w : LadderWork} (h : w.ZeroBase) (r : Bool) : (ladderSwap r w).ZeroBase := by
  obtain ⟨hx, hac, hbd⟩ := h
  cases r
  · exact ⟨hx, hac, hbd⟩
  · exact ⟨hx, hbd, hac⟩

theorem LadderWork.ZeroBase.ladderStep {w : LadderWork} (h : w.ZeroBase) : (ladderStep w).ZeroBase where
  x := h.x
  ac := by rw [cast_ladderStep_c_eq_zero h.ac, mul_zero]
  bd := by rw [cast_ladderStep_d, h.x, zero_mul, mul_zero]

theorem ladderPasses_zeroBase (k : Reg256) (n : Nat) {w : LadderWork} (h : w.ZeroBase) : (ladderPasses k n w).ZeroBase :=
  List.foldlRecOn _ _ h fun _ hv _ _ => ((hv.ladderSwap _).ladderStep).ladderSwap _

theorem zeroBase_ladderInit {u : Nat} (h : u % p = 0) : (ladderInit u).ZeroBase where
  x := by simp [ladderInit, h]
  ac := by simp [ladderInit]
  bd := by simp [ladderInit, h]

/-- Without a scalar bit there is no swap, and doubling keeps a zero c. -/
theorem cast_ladderPasses_c_eq_zero {k : Reg256} {n : Nat} (hk : ∀ i, i < n → k.getLsbD i = false) {w : LadderWork}
    (h : (w.c : ZMod p) = 0) : ((ladderPasses k n w).c : ZMod p) = 0 := by
  refine List.foldlRecOn (motive := fun v : LadderWork => (v.c : ZMod p) = 0) _ _ h fun v hv i hi => ?_
  have hbit : k.getLsbD i = false := hk i (List.mem_range.mp (List.mem_reverse.mp hi))
  have hpass : ladderPass k v i = ladderStep v := by rw [ladderPass_eq, hbit]; rfl
  rw [hpass]
  exact cast_ladderStep_c_eq_zero (by rw [hv, mul_zero])

/-- Settles O32: the final step reduces, and its product is 0 where the loop leaves `a c = 0`. -/
theorem ladderZeroResults : Obligations.LadderZeroResults := by
  unfold Obligations.LadderZeroResults
  intro k u
  refine ⟨ladderValue_lt k u, fun hk => ?_, fun hu => ?_⟩ <;> rw [ladderValue_eq, ladderLoop_eq]
  · have hc := cast_ladderPasses_c_eq_zero hk (w := ladderInit u) Nat.cast_zero
    exact ladderFinish_eq_zero (by rw [hc, mul_zero])
  · exact ladderFinish_eq_zero (ladderPasses_zeroBase k 255 (zeroBase_ladderInit hu)).ac

/-! ### The host-driven ladder (R89(a)) -/

/-- The commands `LSTEP n - 1` down to `LSTEP 0`. -/
def lsteps (n : Nat) : List Instr := (List.range n).reverse.flatMap fun k => lstepCommands (BitVec.ofNat 8 k)

theorem allLsteps_eq : allLsteps = lsteps 255 := rfl

theorem lsteps_onLadderRegs (n : Nat) : ∀ i ∈ lsteps n, OnLadderRegs i := by
  intro i hi
  obtain ⟨k, -, hik⟩ := List.mem_flatMap.mp hi
  exact lstepCommands_onLadderRegs _ i hik

/-- The assignments of the LSTEPs are the passes of the loop of R79. -/
theorem foldl_ladderAssign_lsteps (k : Reg256) {n : Nat} (hn : n ≤ 256) (w : LadderWork) :
    (lsteps n).foldl (ladderAssign k) w = ladderPasses k n w := by
  rw [lsteps, List.foldl_flatMap]
  refine List.foldl_ext _ _ w fun v i hi => ?_
  have hin : i < n := List.mem_range.mp (List.mem_reverse.mp hi)
  rw [foldl_ladderAssign_lstep, BitVec.toNat_ofNat, Nat.mod_eq_of_lt (by omega)]

theorem State.Holds.lsteps {s : State} {w : LadderWork} (h : s.Holds w) {n : Nat} (hn : n ≤ 256) :
    ((Machine.lsteps n).foldl State.after s).Holds (ladderPasses s.scalar n w) := by
  rw [← foldl_ladderAssign_lsteps s.scalar hn]
  exact h.foldl (lsteps_onLadderRegs n)

theorem toNat_readFR_finv_fmul (s : State) {d a b z : RegNum} (hza : z ≠ a) :
    (((s.after (.finv z b)).after (.fmul d a z)).readFR d).toNat =
      fieldMul (s.readFR a).toNat (fieldInv (s.readFR b).toNat) := by
  have hinv : ((s.after (.finv z b)).readFR z).toNat = fieldInv (s.readFR b).toNat :=
    toNat_readFR_writeField s z (fieldInv_lt _)
  have ha : (s.after (.finv z b)).readFR a = s.readFR a := State.readFR_writeFR_other s hza.symm _
  rw [← hinv, ← ha]
  exact toNat_readFR_writeField _ d (fieldMul_lt _ _)

/-- From registers that agree with the loop's start, the LSTEPs leave the loop's a and c in F0 and F2. -/
theorem readFR_allLsteps {s : State} {w : LadderWork} (h7 : (s.readFR 7).toNat = a24) (hw : s.ladderVars.Agrees w) :
    ((allLsteps.foldl State.after s).readFR 0).toNat = (ladderPasses s.scalar 255 w).a ∧
      ((allLsteps.foldl State.after s).readFR 2).toNat = (ladderPasses s.scalar 255 w).c := by
  rw [allLsteps_eq]
  have hloop := hw.ladderPasses s.scalar 255
  have hholds := (State.holds_ladderVars h7).lsteps (n := 255) (by decide)
  exact ⟨(hholds 0 (by decide)).trans hloop.a, (hholds 2 (by decide)).trans hloop.c⟩

/-- Settles O51: the registers go through the loop with the unreduced base, which agrees with LADDER's loop. -/
theorem hostDrivenLadderGivesLaddersResult : Obligations.HostDrivenLadderGivesLaddersResult := by
  unfold Obligations.HostDrivenLadderGivesLaddersResult
  intro u d s hn h0 h1 h2 h3 h6 h7
  have hx : (s.readFR 6).toNat = u.toNat := congrArg BitVec.toNat h6
  have hstart : s.ladderVars.Agrees (ladderInit u.toNat) :=
    ⟨h0, h1, h2, h3, (congrArg (· % p) hx).trans (Nat.mod_mod _ _).symm⟩
  obtain ⟨ha, hc⟩ := readFR_allLsteps h7 hstart
  have hidle := (commandsFrame_foldl hn allLsteps).inflight.trans hn
  obtain ⟨t', he, -, ht'⟩ := exec_writesField (ready_of_idle hn (.ladder d 6)) rfl rfl
    (ladderValue_lt s.scalar (s.readFR 6).toNat)
  refine ⟨_, _, t', runCommands_idle hn _, ha, hc, runCommands_idle hidle _, he, BitVec.eq_of_toNat_eq ?_⟩
  calc _ = fieldMul ((allLsteps.foldl State.after s).readFR 0).toNat
          (fieldInv ((allLsteps.foldl State.after s).readFR 2).toNat) := toNat_readFR_finv_fmul _ (by decide)
    _ = ladderFinish (ladderLoop s.scalar u.toNat) := by rw [ha, hc, ladderLoop_eq, ladderFinish]
    _ = ladderValue s.scalar (s.readFR 6).toNat := by rw [hx, ladderValue_eq]
    _ = (t'.readFR d).toNat := ht'.symm

end Sys2Proof.Machine
end

/-! Proofs of the family 60_exceptions: when an error is recorded, what else it changes, and how it is cleared (R90 to R98). -/

section
namespace Sys2Proof.Machine

/-! ### Recording an error (R93) -/

theorem raise_of_err_false {s : State} (h : s.err = false) (e : ErrorCode) :
    s.raise e = { s with err := true, ecode := errorNumber e } := if_neg (Bool.eq_false_iff.mp h)

theorem raise_of_err_true {s : State} (h : s.err = true) (e : ErrorCode) : s.raise e = s := if_pos h

/-- Settles O7: the numbers are those of `errorNumber`, and `raise` looks at ERR alone. -/
theorem raiseKeepsTheFirstError : Obligations.RaiseKeepsTheFirstError := by
  unfold Obligations.RaiseKeepsTheFirstError
  exact ⟨rfl, rfl, rfl, fun _ e => ⟨fun h => raise_of_err_false h e, fun h => raise_of_err_true h e⟩⟩

/-! ### The writes that can raise an error (R43, R57, R92) -/

theorem target_of_wordOffset_cmd {off : Offset} (h : wordOffset off = 0x000) : target off = .cmd := by
  simp [target_eq, h]

/-- CMD, SCALAR and FR are what the map names outside STATUS and the reserved ranges (R35). -/
theorem cmd_scalar_or_fr_iff (off : Offset) :
    (wordOffset off = 0x000 ∨ (0x040 ≤ wordOffset off ∧ wordOffset off ≤ 0x05C) ∨
      (0x100 ≤ wordOffset off ∧ wordOffset off ≤ 0x2FC)) ↔ target off ≠ .status ∧ target off ≠ .reserved := by
  have hstatus : target off = .status ↔ wordOffset off = 0x004 :=
    ⟨wordOffset_of_target_status, target_of_wordOffset_status⟩
  rw [ne_eq, ne_eq, hstatus, target_reserved_iff]
  omega

theorem memWrite_undecodable {s : State} {off : Offset} {v : Word} {e : DecodeError} (hb : s.busy = false)
    (hcmd : target off = .cmd) (hd : decode v = .error e) : s.memWrite off v = s.raise (decodeErrorCode e) := by
  rw [State.memWrite, hcmd]
  exact writeCmd_error hb hd

/-- The two ways a write raises an error: the block is busy, or the word is no command (R43, R58, R59). -/
theorem memWrite_raises {s : State} {off : Offset} {v : Word}
    (h : (s.busy = true ∧ target off ≠ .status ∧ target off ≠ .reserved) ∨
      (s.busy = false ∧ target off = .cmd ∧ ∀ i, decode v ≠ .ok i)) : ∃ c, s.memWrite off v = s.raise c := by
  rcases h with ⟨hb, hstatus, hreserved⟩ | ⟨hb, hcmd, hd⟩
  · obtain ⟨f, hf⟩ := s.busy_eq_true.mp hb
    exact ⟨_, memWrite_busy hf off v hstatus hreserved⟩
  · cases hdec : decode v with
    | ok i => exact absurd hdec (hd i)
    | error e => exact ⟨_, memWrite_undecodable hb hcmd hdec⟩

/-- Settles O10: the write is a `raise`, whose frame is in the laws of State. -/
theorem errorsArePrecise : Obligations.ErrorsArePrecise := by
  unfold Obligations.ErrorsArePrecise
  intro s rest off v hr he hraises
  obtain ⟨c, hc⟩ := memWrite_raises (s := { s with events := rest }) <|
    hraises.imp (.imp_right (cmd_scalar_or_fr_iff off).mp) (.imp_right (.imp_left target_of_wordOffset_cmd))
  refine ⟨_, (step_memWrite hr he).trans (congrArg _ hc), State.raise_err _ c, State.raise_fr _ c, State.raise_scalar _ c,
    State.raise_inflight _ c, State.raise_work _ c, State.raise_reads _ c, fun herr => ?_⟩
  rw [State.raise_ecode, if_pos herr]

/-! ### What a step does to ERR (R92, R96) -/

/-- The ways a step from `s` to `t` can treat ERR. -/
inductive ErrEffect (s t : State) : Prop
  | unchanged (herr : t.err = s.err)
  | reset (rest : List Event) (he : s.events = .reset :: rest) (herr : t.err = false)
  | clear (e : Event) (rest : List Event) (off : Offset) (v : Word) (he : s.events = e :: rest) (hw : e.Writes off v)
      (htg : target off = .status) (hv : v.getLsbD 1 = true) (herr : t.err = false)
  | error (e : Event) (rest : List Event) (off : Offset) (v : Word) (he : s.events = e :: rest) (hw : e.Writes off v)
      (hstatus : target off ≠ .status) (hreserved : target off ≠ .reserved) (herr : t.err = true)

theorem step_errEffect {s t : State} (h : step s = .next t) : ErrEffect s t := by
  rcases step_cases h with ⟨rest, -, he, rfl⟩ | ⟨f, -, -, rfl⟩ | ⟨-, -, rfl⟩ | ⟨e, rest, -, he, heff⟩
  · exact .reset rest he rfl
  · exact .unchanged (completesWriting_commitOf f.instr f.snap s).err
  · exact .unchanged rfl
  · cases heff with
    | read off => exact .unchanged rfl
    | write off v hw _ heffect =>
      cases heffect with
      | nothing => exact .unchanged rfl
      | clear htg hv => exact .clear e rest off v he hw htg hv rfl
      | error c hstatus hreserved => exact .error e rest off v he hw hstatus hreserved (State.raise_err _ c)
      | issue i _ _ _ => exact .unchanged rfl
      | scalar j _ _ => exact .unchanged rfl
      | fr i j _ _ => exact .unchanged rfl
    | reset hreset => exact .reset rest (hreset ▸ he) rfl
    | work => exact .unchanged (State.coreWork_err _)
    | complete f _ _ => exact .unchanged (completesWriting_commitOf f.instr f.snap _).err
    | idle => exact .unchanged rfl

/-- Settles O9: of the ways a step treats ERR, one can set it. -/
theorem errorsAppearOnlyAtWrites : Obligations.ErrorsAppearOnlyAtWrites := by
  unfold Obligations.ErrorsAppearOnlyAtWrites
  intro s t h hs ht
  cases step_errEffect h with
  | unchanged herr => simp [herr, hs] at ht
  | reset _ _ herr => simp [herr] at ht
  | clear _ _ _ _ _ _ _ _ herr => simp [herr] at ht
  | error e rest off v he hw hstatus hreserved _ =>
    exact ⟨e, rest, off, v, he, hw, (cmd_scalar_or_fr_iff off).mpr ⟨hstatus, hreserved⟩⟩

/-- Settles O11: the write is the map's at STATUS, and of the ways a step treats ERR, two can take it back. -/
theorem onlyStatusWriteOrResetClearsErrors : Obligations.OnlyStatusWriteOrResetClearsErrors := by
  unfold Obligations.OnlyStatusWriteOrResetClearsErrors
  refine ⟨fun s rest v hr he => ?_, fun s t h hs ht => ?_⟩
  · rw [step_memWrite hr he, memWrite_status v (target_of_wordOffset_status rfl)]
    rfl
  · cases step_errEffect h with
    | unchanged herr => simp [herr, hs] at ht
    | reset rest he _ => exact ⟨_, rest, he, .inl rfl⟩
    | clear e rest off v he hw htg hv _ => exact ⟨e, rest, he, .inr ⟨off, v, hw, wordOffset_of_target_status htg, hv⟩⟩
    | error _ _ _ _ _ _ _ _ herr => simp [herr] at ht

end Sys2Proof.Machine
end

/-! Proofs of the family 70_reset_and_hazards: reset, accesses beside a command in flight, completion, and the host's run (R107 to R114). -/

section
namespace Sys2Proof.Machine

/-! ### Reset (R31, R107, R108) -/

/-- A reset is taken at any time, by a block that was never reset too (R32, R107). -/
theorem step_reset {s : State} {rest : List Event} (he : s.events = .reset :: rest) :
    step s = .next (State.resetBlock { s with events := rest }) := by
  cases hr : s.resetDone with
  | false => simp [step, hr, runBeforeReset, he]
  | true => exact hr ▸ step_event hr he

/-- Settles O41: the step is `resetBlock`, whose fields are in the laws of State. -/
theorem resetZeroesTheBlock : Obligations.ResetZeroesTheBlock := by
  unfold Obligations.ResetZeroesTheBlock
  intro s rest he
  exact ⟨_, step_reset he, State.readFR_resetBlock _, rfl, rfl, rfl, rfl, rfl, rfl, rfl, rfl, rfl⟩

/-! ### Until the completion (R45, R113) -/

/-- Settles O47: the frame of a run on a busy block. -/
theorem oldValuesUntilCompletion : Obligations.OldValuesUntilCompletion := by
  unfold Obligations.OldValuesUntilCompletion
  intro es rest s hr hb he hleave
  obtain ⟨f, hf⟩ := s.busy_eq_true.mp hb
  obtain ⟨t, hrun, ht⟩ := runSteps_busyFrame hr hf he hleave
  exact ⟨t, hrun, t.busy_eq_true.mpr ⟨f, ht.inflight.trans hf⟩, ht.inflight, ht.fr, ht.scalar, ht.events⟩

/-! ### Completion once the host is silent (R114) -/

/-- What an event leaves of the model's own record of the surroundings: the events still to come, and a block that counts as reset. -/
structure KeepsSurroundings (s t : State) : Prop where
  resetDone : s.resetDone = true → t.resetDone = true
  events : t.events = s.events

theorem WriteEffect.keepsSurroundings {s t : State} {off : Offset} {v : Word} (h : WriteEffect s off v t) :
    KeepsSurroundings s t := by
  cases h with
  | nothing => exact ⟨id, rfl⟩
  | clear _ _ => exact ⟨id, rfl⟩
  | error e _ _ => constructor <;> simp
  | issue _ _ _ _ => exact ⟨id, rfl⟩
  | scalar _ _ _ => exact ⟨id, rfl⟩
  | fr _ _ _ _ => exact ⟨id, rfl⟩

theorem EventEffect.keepsSurroundings {s t : State} {e : Event} (h : EventEffect s e t) : KeepsSurroundings s t := by
  cases h with
  | read off => exact ⟨id, rfl⟩
  | write _ _ _ _ hw => exact hw.keepsSurroundings
  | reset _ => exact ⟨fun _ => rfl, rfl⟩
  | work => constructor <;> simp
  | complete f _ _ =>
    have hc := completesWriting_commitOf f.instr f.snap s
    exact ⟨hc.resetDone.trans, hc.events⟩
  | idle => exact ⟨id, rfl⟩

/-- Events that all have a meaning run to their end (I7, I12). -/
theorem runSteps_inScope {es : List Event} {s : State} (hr : s.resetDone = true) (he : s.events = es)
    (hscope : ∀ e ∈ es, e.InScope) : ∃ t, runSteps es.length s = .next t ∧ t.resetDone = true ∧ t.events = [] := by
  induction es generalizing s with
  | nil => exact ⟨s, rfl, hr, he⟩
  | cons e es ih =>
    obtain ⟨hmeaning, hscope⟩ := List.forall_mem_cons.mp hscope
    obtain ⟨u, hu⟩ := runEvent_total { s with events := es } hmeaning
    have hkeeps := (runEvent_effect hu).keepsSurroundings
    obtain ⟨t, hrun, ht⟩ := ih (hkeeps.resetDone hr) hkeeps.events hscope
    exact ⟨t, (runSteps_succ ((step_event hr he).trans hu)).trans hrun, ht⟩

/-- With no event left a step ends with an idle block (R109, R114). -/
theorem step_silent_idle {s : State} (hr : s.resetDone = true) (he : s.events = []) :
    ∃ t, step s = .next t ∧ t.inflight = none ∧ t.events = [] := by
  rw [step_silent hr he]
  cases hf : s.inflight with
  | none => exact ⟨s, coreComplete_idle hf, hf, he⟩
  | some f =>
    have hc := completesWriting_commitOf f.instr f.snap s
    exact ⟨_, coreComplete_inflight hf, hc.idle, hc.events.trans he⟩

/-- Settles O48: the run of the events, and the step of a silent host after it. -/
theorem commandsEventuallyComplete : Obligations.CommandsEventuallyComplete := by
  unfold Obligations.CommandsEventuallyComplete
  intro s hr hscope
  obtain ⟨u, hrun, hru, heu⟩ := runSteps_inScope hr rfl hscope
  obtain ⟨t, hstep, hidle, het⟩ := step_silent_idle hru heu
  exact ⟨t, (runSteps_add hrun).trans (runSteps_succ hstep), t.busy_eq_false.mpr hidle, het⟩

/-! ### Loading SCALAR and a field register (R38, R40, R110(3)) -/

/-- The host's write of word `j` of `x` to word `j` of SCALAR, as in `writeScalarEvents`. -/
def scalarWordWrite (x : Reg256) (j : Nat) : Event :=
  .memWrite (BitVec.ofNat 12 (0x040 + 4 * j)) (getWord x (BitVec.ofNat 3 j))

theorem writeScalarEvents_eq (x : Reg256) : writeScalarEvents x = (List.range 8).map (scalarWordWrite x) := rfl

theorem step_scalarWordWrite {s : State} {x : Reg256} {j : Nat} {rest : List Event} (hr : s.resetDone = true)
    (hn : s.inflight = none) (hj : j < 8) (he : s.events = scalarWordWrite x j :: rest) :
    step s = .next { s with
      events := rest
      scalar := setWord s.scalar (BitVec.ofNat 3 j) (getWord x (BitVec.ofNat 3 j)) } := by
  have ht : target (BitVec.ofNat 12 (0x040 + 4 * j)) = .scalar (BitVec.ofNat 3 j) := by
    simpa [Nat.mod_eq_of_lt hj] using target_scalarOffset (BitVec.ofNat 3 j) (low := 0) (by decide)
  rw [step_memWrite hr he, memWrite_scalar (s := { s with events := rest }) _ hn ht]

/-- A run of such writes on an idle block loads the words into SCALAR and does nothing else. -/
theorem runSteps_scalarWordWrites {js : List Nat} {s : State} {x : Reg256} {rest : List Event}
    (hr : s.resetDone = true) (hn : s.inflight = none) (hjs : ∀ j ∈ js, j < 8)
    (he : s.events = js.map (scalarWordWrite x) ++ rest) :
    runSteps js.length s = .next { s with events := rest, scalar := loadWords x js s.scalar } := by
  induction js generalizing s with
  | nil =>
    obtain rfl : rest = s.events := he.symm
    rfl
  | cons j js ih =>
    obtain ⟨hj, hjs⟩ := List.forall_mem_cons.mp hjs
    rw [List.length_cons, runSteps_succ (step_scalarWordWrite hr hn hj he), ih (by exact hr) (by exact hn) hjs rfl]
    rfl

theorem runSteps_writeScalarEvents {s : State} {x : Reg256} {rest : List Event} (hr : s.resetDone = true)
    (hn : s.inflight = none) (he : s.events = writeScalarEvents x ++ rest) :
    runSteps 8 s = .next { s with events := rest, scalar := x } := by
  have hrun := runSteps_scalarWordWrites hr hn (fun j hj => List.mem_range.mp hj)
    (he.trans (congrArg (· ++ rest) (writeScalarEvents_eq x)))
  rwa [List.length_range, loadWords_range] at hrun

theorem runSteps_writeFREvents {s : State} {i : RegNum} {x : Reg256} {rest : List Event} (hr : s.resetDone = true)
    (hn : s.inflight = none) (he : s.events = writeFREvents i x ++ rest) :
    runSteps 8 s = .next (State.writeFR { s with events := rest } i x) := by
  have hrun := runSteps_frWordWrites hr hn (fun j hj => List.mem_range.mp hj)
    (he.trans (congrArg (· ++ rest) (writeFREvents_eq i x)))
  rwa [List.length_range, loadWords_range] at hrun

/-! ### Reading a field register (R38, R41, R110(6)) -/

/-- A run of reads adds the words at their offsets to the host's record, the newest first, and does nothing else. -/
theorem runSteps_memReads {offs : List Offset} {s : State} {rest : List Event} (hr : s.resetDone = true)
    (he : s.events = offs.map Event.memRead ++ rest) :
    runSteps offs.length s =
      .next { s with events := rest, reads := (offs.map (windowRead s)).reverse ++ s.reads } := by
  induction offs generalizing s with
  | nil =>
    obtain rfl : rest = s.events := he.symm
    rfl
  | cons off offs ih =>
    let u : State := { s with events := offs.map Event.memRead ++ rest, reads := windowRead s off :: s.reads }
    have hu : step s = .next u := step_memRead hr he
    have hwindow : windowRead u = windowRead s := funext (windowRead_congr rfl rfl rfl)
    rw [List.length_cons, runSteps_succ hu, ih (by exact hr) rfl, hwindow, List.map_cons, List.reverse_cons,
      List.append_assoc]
    rfl

/-- The eight words of a register, the lowest first. -/
def registerWords (v : Reg256) : List Word := (List.range 8).map fun j => getWord v (BitVec.ofNat 3 j)

theorem runSteps_readFREvents {s : State} {i : RegNum} {rest : List Event} (hr : s.resetDone = true)
    (he : s.events = readFREvents i ++ rest) :
    runSteps 8 s = .next { s with events := rest, reads := (registerWords (s.readFR i)).reverse ++ s.reads } := by
  let offs : List Offset := (List.range 8).map fun j => BitVec.ofNat 12 (0x100 + 0x20 * i.toNat + 4 * j)
  have hwords : offs.map (windowRead s) = registerWords (s.readFR i) := by
    rw [List.map_map]
    refine List.map_congr_left fun j hj => windowRead_fr s ?_
    have hj : j < 8 := List.mem_range.mp hj
    simpa [Nat.mod_eq_of_lt hj] using target_frOffset i (BitVec.ofNat 3 j) (low := 0) (by decide)
  have hrun := runSteps_memReads (offs := offs) hr he
  rwa [hwords] at hrun

/-! ### The bytes of a register (R12, R14) -/

theorem leBytes_add (m n x : Nat) : leBytes (m + n) x = leBytes m x ++ leBytes n (x / 256 ^ m) := by
  induction m generalizing x with
  | zero => simp [leBytes]
  | succ m ih =>
    rw [Nat.succ_add, leBytes, ih, leBytes, List.cons_append, Nat.div_div_eq_div_mul, pow_succ']

/-- `n` bytes look at the low `n` bytes of a number only. -/
theorem leBytes_mod (n x : Nat) : leBytes n (x % 256 ^ n) = leBytes n x := by
  have h := leBytes_leInt (leBytes n x)
  rwa [length_leBytes, leInt_leBytes] at h

/-- The bytes of the words of a number, word after word. -/
theorem flatMap_leBytes_words (n x : Nat) :
    ((List.range n).flatMap fun j => leBytes 4 (x / 2 ^ (32 * j) % 2 ^ 32)) = leBytes (4 * n) x := by
  induction n with
  | zero => rfl
  | succ n ih =>
    have hpow : 2 ^ (32 * n) = 256 ^ (4 * n) := by rw [show 256 = 2 ^ 8 from rfl, ← pow_mul]; congr 1; omega
    rw [List.range_succ, List.flatMap_append, ih, List.flatMap_singleton, Nat.mul_succ, leBytes_add, hpow]
    exact congrArg _ (leBytes_mod 4 _)

/-- The bytes of the eight words of a register are its 32-byte encoding. -/
theorem flatMap_leBytes_registerWords (v : Reg256) :
    ((registerWords v).flatMap fun w => leBytes 4 w.toNat) = leBytes 32 v.toNat := by
  rw [← flatMap_leBytes_words 8, registerWords, List.flatMap_map]
  refine List.flatMap_congr fun j hj => ?_
  rw [getWord_ofNat v (List.mem_range.mp hj), BitVec.extractLsb'_toNat, Nat.shiftRight_eq_div_pow]

/-- A string of 32 bytes fits a register. -/
theorem toNat_ofNat_leInt {b : List Byte} (hb : b.length = 32) : (BitVec.ofNat 256 (leInt b)).toNat = leInt b := by
  have h := leInt_leBytes b.length (leInt b)
  rw [leBytes_leInt, hb] at h
  exact (BitVec.toNat_ofNat _ _).trans h.symm

/-! ### The host's run (R110, R111) -/

theorem readFR_after_ladder (s : State) (d b : RegNum) :
    ((s.after (.ladder d b)).readFR d).toNat = ladderValue s.scalar (s.readFR b).toNat :=
  toNat_readFR_writeField s d (ladderValue_lt _ _)

/-- The block at the end of the accesses of R110: LADDER's value was read as the newest eight words, and no error is new. -/
theorem runSteps_x25519Events {n : Nat} {d b : RegNum} {scalar base : Reg256} {rest : List Event} {s : State}
    (hr : s.resetDone = true) (hn : s.inflight = none) (he : s.events = x25519Events n d b scalar base ++ rest) :
    ∃ (t : State) (v : Reg256) (earlier : List Word), runSteps (n + 27) s = .next t ∧
      v.toNat = ladderValue scalar base.toNat ∧ t.reads = (registerWords v).reverse ++ earlier ∧
      t.events = rest ∧ t.inflight = none ∧ t.err = s.err ∧ t.ecode = s.ecode := by
  simp only [x25519Events, List.append_assoc] at he
  let readout : List Event := readFREvents d ++ rest
  let command : List Event := commandEvents n (.ladder d b) ++ readout
  let loaded : State := State.writeFR { s with events := command, scalar := scalar } b base
  have hscalar := runSteps_writeScalarEvents hr hn he
  have hbase := runSteps_writeFREvents (s := { s with events := writeFREvents b base ++ command, scalar := scalar })
    (rest := command) hr hn rfl
  obtain ⟨u, hladder, hsame, hru, heu⟩ := runSteps_commandEvents (s := loaded) (rest := readout) hr hn rfl
  have hread := runSteps_readFREvents hru heu
  rw [length_commandEvents] at hladder
  have hframe := completesWriting_commitOf (.ladder d b) (loaded.capture (.ladder d b)) loaded
  refine ⟨{ u with events := rest, reads := (registerWords (u.readFR d)).reverse ++ u.reads }, u.readFR d, u.reads,
    ?_, ?_, rfl, rfl, hsame.inflight, hsame.err.trans hframe.err, hsame.ecode.trans hframe.ecode⟩
  · calc runSteps (n + 27) s
        = runSteps (8 + (8 + (n + 3 + 8))) s := by congr 1; omega
      _ = runSteps (n + 3 + 8) loaded := (runSteps_add hscalar).trans (runSteps_add hbase)
      _ = runSteps 8 u := runSteps_add hladder
      _ = .next { u with events := rest, reads := (registerWords (u.readFR d)).reverse ++ u.reads } := hread
  · rw [State.readFR_congr hsame.fr d, readFR_after_ladder, State.readFR_writeFR_same]
    rfl

/-- Settles O54: the words the run reads are those of LADDER's value, and their bytes its encoding. -/
theorem hostRunComputesX25519 : Obligations.HostRunComputesX25519 := by
  unfold Obligations.HostRunComputesX25519
  refine ⟨fun sk pk n d b rest s _ hpk hr hb he => ?_, fun sk => ?_⟩
  · obtain ⟨t, v, earlier, hrun, hv, hreads, hevents, hidle, herr, hecode⟩ :=
      runSteps_x25519Events hr (s.busy_eq_false.mp hb) he
    refine ⟨t, hrun, hevents, t.busy_eq_false.mpr hidle, herr, hecode, ?_⟩
    have hnewest : t.reads.take 8 = (registerWords v).reverse := by
      rw [hreads]
      exact List.take_left' (by simp [registerWords])
    rw [hnewest, List.reverse_reverse, flatMap_leBytes_registerWords, hv, decodeBytes, toNat_ofNat_leInt hpk]
    rfl
  · have hbase : decodeBytes (encodeField 9) = 9 := leInt_leBytes 32 9
    rw [x25519, hbase, pubkey]

end Sys2Proof.Machine
end
